-- ==== Sys2Proof/Word.lean ====
section
/-! DEFINITION. The word types of an operation stream (30_encoding.md R70, R76): 16-bit headers, 32-bit operands, and
binary32 patterns. -/

namespace Sys2Proof

/-- A header word (R70). -/
abbrev Header := BitVec 16

/-- An operand word (R70). -/
abbrev Operand := BitVec 32

/-- A binary32 bit pattern (R83). -/
abbrev F32 := BitVec 32

/-- One word of a schedule: the stream is a list of 16-bit and 32-bit words (R76). -/
inductive SchedWord where
  | header (h : Header)
  | operand (o : Operand)
  deriving DecidableEq, Repr

end Sys2Proof
end

