-- ==== Sys2Proof/Config.lean ====
section
/-! DEFINITION. The implementation parameters (00_scope.md R5) and the one free value of the model. -/

namespace Sys2Proof

/-- What a timestamp is (R5, R161). -/
inductive TimeSource where
  | iter
  | external
  deriving DecidableEq, Repr

/-- The parameters of R5. The number format FP is fixed to binary32 and is no field. Which values are legal is
`Machine.configLegal` (R6). -/
structure Config where
  /-- INTERVAL, main-loop iterations per telemetry window. -/
  interval : Nat
  /-- DT, the control-loop period, binary32. -/
  dt : F32
  /-- TICK_W, the width of the tick counter. -/
  tickW : Nat
  /-- ERR_W, the width of the error counter. -/
  errW : Nat
  /-- ITER_W, the width of the iteration counter. -/
  iterW : Nat
  /-- TIME_W, the width of timestamps. -/
  timeW : Nat
  /-- TIME_SOURCE. -/
  timeSource : TimeSource
  /-- COMPLEMENT_CHECK. -/
  complementCheck : Bool
  deriving DecidableEq, Repr

/-- The values R5 gives. DESIGN CHOICE: R5 leaves DT open; 1.0 is the value of the source's scenario
(95_test_vectors.md), unsafe for a claim about the reset state alone, log entry 2. -/
def Config.standard : Config where
  interval := 10000
  dt := 0x3F800000#32
  tickW := 32
  errW := 32
  iterW := 32
  timeW := 32
  timeSource := .iter
  complementCheck := false

/-- FREE VALUE: the pattern from which the sign and the payload of a NaN result are taken, a function of the operands.
The spec gives IEEE 754 arithmetic (R8) and no NaN payload. A difference a - b applies it to a and -b. Log entry 8. -/
opaque Config.freeNaN : F32 → F32 → F32

end Sys2Proof
end

