-- ==== Sys2Proof/Machine/F32.lean ====
section
/-! DEFINITION. The binary32 primitives (00_scope.md R8) over the layout of 30_encoding.md R83: operands to exact integers,
exact arithmetic, one rounding to nearest with ties to even. No exception flag is kept.
PRESUMED: the results for zeros, infinities and NaNs are those of IEEE 754, to which R8 refers, log entry 14. -/

namespace Sys2Proof.Machine

/-- Bit 31, the sign (R83). -/
def f32Sign (x : F32) : Bool := x.getLsbD 31

/-- Bits 30:23, the biased exponent (R83). -/
def f32Exp (x : F32) : Nat := (x.extractLsb' 23 8).toNat

/-- Bits 22:0, the fraction (R83). -/
def f32Frac (x : F32) : Nat := (x.extractLsb' 0 23).toNat

/-- Bits 30:0: the pattern less its sign. As numbers they order the magnitudes. -/
def f32Mag (x : F32) : Nat := (x.extractLsb' 0 31).toNat

/-- A pattern from its sign and its bits 30:0. -/
def f32Pack (sign : Bool) (mag : Nat) : F32 := BitVec.ofBool sign ++ BitVec.ofNat 31 mag

/-- Bits 30:0 of an infinity (R83). -/
def infMag : Nat := 0x7F800000

def f32IsNaN (x : F32) : Bool := f32Exp x == 0xFF && f32Frac x != 0

def f32IsInf (x : F32) : Bool := f32Exp x == 0xFF && f32Frac x == 0

/-- `f32_isfinite` (R8). -/
def f32IsFinite (x : F32) : Bool := f32Exp x != 0xFF

/-- The magnitude of a finite number in units of 2^-149, the least positive subnormal (R83: exponent 0 is zero or
subnormal, nothing is flushed). -/
def f32Units (x : F32) : Nat :=
  if f32Exp x = 0 then f32Frac x else (2 ^ 23 + f32Frac x) * 2 ^ (f32Exp x - 1)

/-- The exact value of a finite number in units of 2^-149. -/
def f32Value (x : F32) : Int := if f32Sign x then -(f32Units x : Int) else (f32Units x : Int)

/-- `n / 2^sh` rounded to nearest, ties to even. -/
def roundShift (n sh : Nat) : Nat :=
  let q := n / 2 ^ sh
  let r := n % 2 ^ sh
  if 2 ^ sh < 2 * r ∨ (2 * r = 2 ^ sh ∧ q % 2 = 1) then q + 1 else q

/-- How many low bits of `n` (units of 2^-(149+k)) binary32 has no room for: all below 2^-149, and all below the 24th
significant bit. -/
def roundDrop (n k : Nat) : Nat := max k (n.log2 - 23)

/-- Bits 30:0 of the binary32 nearest to `n` units of 2^-(149+k), ties to even. A carry out of the fraction runs into the
exponent, and a magnitude past the largest finite one is infinity. -/
def roundMag (n k : Nat) : Nat :=
  min ((roundDrop n k - k) * 2 ^ 23 + roundShift n (roundDrop n k)) infMag

/-- A quiet NaN whose sign and payload are free. DESIGN CHOICE: one free function of the operands serves addition and
multiplication, so a NaN sum and a NaN product of the same operands are one pattern, log entry 8. -/
def nanResult (a b : F32) : F32 := Config.freeNaN a b ||| 0x7FC00000#32

/-- The binary32 nearest to `v` units of 2^-149; `zeroSign` is the sign of an exact zero. -/
def roundValue (zeroSign : Bool) (v : Int) : F32 :=
  if v = 0 then f32Pack zeroSign 0 else f32Pack (decide (v < 0)) (roundMag v.natAbs 0)

/-- `f32_add` (R8). An exact zero sum is +0 unless both operands are negative (R135). -/
def f32Add (a b : F32) : F32 :=
  if f32IsNaN a || f32IsNaN b then nanResult a b
  else if f32IsInf a then
    if f32IsInf b && f32Sign a != f32Sign b then nanResult a b else a
  else if f32IsInf b then b
  else roundValue (f32Sign a && f32Sign b) (f32Value a + f32Value b)

/-- The same magnitude with the other sign. -/
def f32Neg (a : F32) : F32 := a ^^^ 0x80000000#32

/-- `f32_sub` (R8): a - b is a + (-b). DESIGN CHOICE: so is a NaN difference, on whose sign and payload the spec is silent:
its free value is `freeNaN` at `a` and `-b`, that of the sum, and not at `a` and `b`, log entry 8. -/
def f32Sub (a b : F32) : F32 := f32Add a (f32Neg b)

/-- `f32_mul` (R8): the product of two magnitudes counts units of 2^-298. -/
def f32Mul (a b : F32) : F32 :=
  let sign := f32Sign a != f32Sign b
  if f32IsNaN a || f32IsNaN b then nanResult a b
  else if f32IsInf a || f32IsInf b then
    if f32Mag a = 0 ∨ f32Mag b = 0 then nanResult a b else f32Pack sign infMag
  else f32Pack sign (roundMag (f32Units a * f32Units b) 149)

/-- `f32_abs` (R8) clears the sign bit. -/
def f32Abs (a : F32) : F32 := a &&& 0x7FFFFFFF#32

/-- The place of a pattern that is no NaN in the order of R8; +0 and -0 have one place. -/
def f32Key (a : F32) : Int := if f32Sign a then -(f32Mag a : Int) else (f32Mag a : Int)

/-- `f32_le` (R8), false on a NaN. -/
def f32Le (a b : F32) : Bool := !f32IsNaN a && !f32IsNaN b && decide (f32Key a ≤ f32Key b)

/-- `f32_gt` (R8), false on a NaN. -/
def f32Gt (a b : F32) : Bool := !f32IsNaN a && !f32IsNaN b && decide (f32Key b < f32Key a)

/-- `f32_eq_bits` (R8). -/
def f32EqBits (a b : F32) : Bool := a == b

/-- `bits32` (30_encoding.md R85): the decimal number (-1)^neg * num / den, rounded to nearest with ties to even. Two bits
below the unit 2^-149 and a sticky bit decide the rounding as the exact quotient would. -/
def bits32 (neg : Bool) (num den : Nat) : F32 :=
  let n := num * 2 ^ 151
  f32Pack neg (roundMag (2 * (n / den) + (if n % den = 0 then 0 else 1)) 3)

end Sys2Proof.Machine
end

