-- ==== Sys2Proof/Machine/Bits.lean ====
section
/-! DEFINITION. Counter arithmetic (00_scope.md R7). -/

namespace Sys2Proof.Machine

/-- `wrap_N(v) = v mod 2^N` (R7). -/
def wrap (n v : Nat) : Nat := v % 2 ^ n

/-- `wrap_N(x - y)`, the difference taken in the integers (R7, R161). -/
def wrapSub (n x y : Nat) : Nat := (((x : Int) - (y : Int)) % (2 ^ n : Nat)).toNat

end Sys2Proof.Machine
end

