-- ==== Sys2Proof/Syntax.lean ====
section
/-! DEFINITION. The seven operations (00_scope.md R2), one constructor per row of spec/opcode_table.json, and the KINDs of
their headers (30_encoding.md R72). -/

namespace Sys2Proof

/-- An operation with its operands (R72). Levels are one bit each. -/
inductive Instr where
  /-- `RESET ab` (R230): the levels of qa and qb at reset. -/
  | reset (a b : Bool)
  /-- `EDGE ab, xy` (R100): the levels of qa, qb, qa_n and qb_n. -/
  | edge (a b an bn : Bool)
  /-- `SETV f` (R132): the binary32 pattern of the target velocity. -/
  | setv (v : F32)
  /-- `SETA f` (R133): the binary32 pattern of the target acceleration. -/
  | seta (v : F32)
  /-- `RAMP` (R130). -/
  | ramp
  /-- `COUNT` (R160). -/
  | count
  /-- `FINISH tx, t` (R161): the level of tx_ready and the operand word whose low TIME_W bits are time_in. -/
  | finish (tx : Bool) (o : Operand)
  deriving DecidableEq, Repr

/-- The legal KINDs of a header (R72). -/
inductive Kind where
  | reset | edge | setv | seta | ramp | count | finish
  deriving DecidableEq, Repr

end Sys2Proof
end

