-- ==== Sys2Proof/Machine/State.lean ====
section
/-! DEFINITION. The state of the block (10_state.md R20 to R38), the state after reset (70_reset_and_hazards.md R230), and
the reasons an operation has no next state (60_exceptions.md R202). -/

namespace Sys2Proof.Machine

/-- The stored direction (R23, R82): +1, -1, and 0 from reset to the first valid transition. -/
inductive Direction where
  | cw
  | ccw
  | unknown
  deriving DecidableEq, Repr

/-- The main loop's position (R34). -/
inductive Phase where
  | pRamp
  | pCount
  | pFinish
  deriving DecidableEq, Repr

/-- The values of FAULT (R35). -/
inductive FaultCode where
  | none
  | precond
  deriving DecidableEq, Repr

/-- A telemetry record (R84). -/
structure Record where
  ticks : Nat
  dur : Nat
  dir : Direction
  chg : Bool
  deriving DecidableEq, Repr

/-- The registers of R21, the record stream of R38, and two fields of the model's own: the configuration (R5, log entry 2)
and the schedule still to run (R76, log entry 4). A counter is the unsigned number it holds (R7, log entry 1). -/
structure State where
  /-- The configuration (R5). No operation writes it. -/
  cfg : Config
  /-- PREV (R22). -/
  prev : BitVec 2
  /-- DIR (R23). -/
  dir : Direction
  /-- DCF (R24). -/
  dcf : Bool
  /-- TICK (R25). -/
  tick : Nat
  /-- ERR (R26). -/
  err : Nat
  /-- TSMP (R30). -/
  tsmp : Nat
  /-- TV (R27). -/
  tv : F32
  /-- TA (R28). -/
  ta : F32
  /-- CV (R29). -/
  cv : F32
  /-- ITER (R31). -/
  iter : Nat
  /-- LOOPC (R32). -/
  loopc : Nat
  /-- OBST (R33). -/
  obst : Nat
  /-- PHASE (R34). -/
  phase : Phase
  /-- FAULT (R35). -/
  fault : FaultCode
  /-- STARTED (R35). -/
  started : Bool
  /-- TLM_OUT, oldest first (R38). -/
  tlmOut : List Record
  /-- The operation words still to run, next first (R76). -/
  sched : List SchedWord
  deriving DecidableEq, Repr

/-- The machine right after reset: R230 with the levels 0 and 0 (DESIGN CHOICE, log entry 3), the configuration of R5,
nothing emitted, nothing scheduled. -/
def State.reset : State where
  cfg := Config.standard
  prev := 0b00#2
  dir := .unknown
  dcf := false
  tick := 0
  err := 0
  tsmp := 0
  tv := 0x00000000#32
  ta := 0x00000000#32
  cv := 0x00000000#32
  iter := 0
  loopc := 0
  obst := 0
  phase := .pRamp
  fault := .none
  started := true
  tlmOut := []
  sched := []

/-- Why the machine stops with a fault; the final state stands in it (log entry 7). -/
inductive Fault where
  /-- F_PRECOND (R202, R203), raised by RAMP when its inputs are malformed. It carries the state the fault leaves: FAULT
  written, every other register kept for inspection. Safe: the model claims no velocity where the chip's is unknown. -/
  | precond (final : State)
  /-- No step (R203, R205 check 4): an operation presented after the run ended in a fault, RESET included. Raised by every
  operation. It carries the state, which nothing changes. Safe: a chip would go on. -/
  | noStep (final : State)
  deriving DecidableEq, Repr

/-- Why the machine refuses. Each of the six RF reasons carries what R202 says it records. -/
inductive Refusal where
  /-- An operation that has no meaning yet. Raised by exec's arms alone. Safe. -/
  | notModelled (mnemonic : String)
  /-- RF_BAD_CONFIG (R6), raised by step. Safe: such a model has no runs. -/
  | badConfig
  /-- RF_BEFORE_RESET (R232), raised by every operation but RESET. Safe: there is no state before the first RESET. -/
  | beforeReset
  /-- RF_RESERVED_KIND (R78), raised by step's decoding; the header. Safe. -/
  | reservedKind (h : Header)
  /-- RF_RESERVED_BITS (R78), raised by step's decoding; the header. Safe. -/
  | reservedBits (h : Header)
  /-- RF_TRUNCATED (R71), raised by step's decoding; the header. Safe. -/
  | truncated (h : Header)
  /-- RF_DISABLED (R57), raised by RAMP, COUNT and FINISH; the operation and PHASE. Safe: the block never does it. -/
  | disabled (i : Instr) (p : Phase)
  /-- A 32-bit word stands where a header is due, raised by step's decoding. The model's own, log entry 5. Safe. -/
  | strayOperand (o : Operand)
  /-- The schedule is over: no operation is presented. Raised by step. The model's own, log entry 4. Safe. -/
  | scheduleEnd
  deriving DecidableEq, Repr

end Sys2Proof.Machine
end

