-- ==== Sys2Proof/Machine/Operands.lean ====
section
/-! DEFINITION. What an operation reads from its operands: phase codes (30_encoding.md R80), the transition table
(40_decoder.md R101), the complement check (R100), time_in (R72), and the codes of DIR (R82). -/

namespace Sys2Proof.Machine

/-- The phase code `{A, B}`, A in bit 1 (R80). -/
def phaseCode (a b : Bool) : BitVec 2 := BitVec.ofBool a ++ BitVec.ofBool b

/-- The classes of a transition (R101). -/
inductive TransClass where
  | none
  | fwd
  | rev
  | invalid
  deriving DecidableEq, Repr

/-- QTRANS (R101), by the index `p*4 + c`. -/
def qtransTable : List TransClass :=
  [.none, .fwd, .rev, .invalid,
   .rev, .none, .invalid, .fwd,
   .fwd, .invalid, .none, .rev,
   .invalid, .rev, .fwd, .none]

/-- The class of the transition from phase code `p` to phase code `c` (R101). -/
def qtrans (p c : BitVec 2) : TransClass := qtransTable.getD (p.toNat * 4 + c.toNat) .invalid

/-- A true and complement pair agrees (R100). -/
def complementMismatch (a b an bn : Bool) : Bool := an == a || bn == b

/-- `time_in = o[TIME_W-1:0]` (R72), log entry 12. -/
def timeIn (timeW : Nat) (o : Operand) : Nat := o.toNat % 2 ^ timeW

/-- The 2-bit two's-complement code of a direction (R82). -/
def dirCode : Direction → BitVec 2
  | .cw => 0b01#2
  | .unknown => 0b00#2
  | .ccw => 0b11#2

/-- The negation of a direction (R82). -/
def dirNeg : Direction → Direction
  | .cw => .ccw
  | .ccw => .cw
  | .unknown => .unknown

end Sys2Proof.Machine
end

