-- ==== Sys2Proof/Machine/Flags.lean ====
section
/-! DEFINITION. The block's only flag (10_state.md R40): how a valid transition leaves DCF and DIR (40_decoder.md R100). -/

namespace Sys2Proof.Machine

/-- DCF after a valid transition resolved to `d`: set when it flips a known direction, never cleared (R100, R24). -/
def dcfAfter (old d : Direction) (dcf : Bool) : Bool :=
  if d ≠ old ∧ old ≠ .unknown then true else dcf

/-- DIR after a valid transition resolved to `d` (R100). -/
def dirAfter (old d : Direction) : Direction :=
  if d ≠ old then d else old

end Sys2Proof.Machine
end

