-- ==== Sys2Proof/Machine/Ops.lean ====
section
/-! DEFINITION. The shared operations over the state: the checks every operation makes (60_exceptions.md R205), raising the
fault (R203), the reset load (70_reset_and_hazards.md R230), the decoder's writes (40_decoder.md R100), emitting a record
(R9, R161), the legal configurations (00_scope.md R6). -/

namespace Sys2Proof.Machine

/-- What an operation answers. -/
abbrev Result := Host.Outcome State Fault Refusal

/-- The legal ranges of R5 (R6). -/
def configLegal (c : Config) : Bool :=
  decide (1 ≤ c.interval) && decide (c.interval < 2 ^ c.iterW)
    && (f32IsFinite c.dt && f32Gt c.dt 0x00000000#32)
    && (decide (1 ≤ c.tickW) && decide (c.tickW ≤ 32))
    && (decide (1 ≤ c.errW) && decide (c.errW ≤ 32))
    && (decide (1 ≤ c.timeW) && decide (c.timeW ≤ 32))

/-- R205 check 4: once the block has started and FAULT is set, no operation has a step. -/
def unlessFaulted (s : State) (r : Result) : Result :=
  if s.started = true ∧ s.fault ≠ .none then .fault (.noStep s) else r

/-- R205 checks 3 and 4, for every operation but RESET. -/
def whenStarted (s : State) (r : Result) : Result :=
  if s.started = false then .refused .beforeReset else unlessFaulted s r

/-- R205 check 5, for a main-loop operation `i` that PHASE `p` names (R57). -/
def whenPhase (i : Instr) (p : Phase) (s : State) (r : Result) : Result :=
  if s.phase ≠ p then .refused (.disabled i s.phase) else r

/-- `raise Fault(F_PRECOND)`: FAULT is written and nothing else, and the operation ends in the fault outcome (R9, R202,
R203). -/
def raisePrecond (s : State) : Result := .fault (.precond { s with fault := .precond })

/-- The state RESET leaves (R230). TLM_OUT is not touched (R38, R231); neither are the model's own fields. -/
def loadReset (a b : Bool) (s : State) : State :=
  { s with
    prev := phaseCode a b
    dir := .unknown
    dcf := false
    tick := 0
    err := 0
    tsmp := 0
    tv := 0x00000000#32
    ta := 0x00000000#32
    cv := 0x00000000#32
    iter := 0
    loopc := 0
    obst := 0
    phase := .pRamp
    fault := .none
    started := true }

/-- `ERR <- wrap_ERR_W(ERR + 1)` (R26). -/
def bumpErr (s : State) : State := { s with err := wrap s.cfg.errW (s.err + 1) }

/-- The writes of a valid transition to phase code `cur` in direction `d` (R100). -/
def validStep (cur : BitVec 2) (d : Direction) (s : State) : State :=
  { s with
    prev := cur
    tick := wrap s.cfg.tickW (s.tick + 1)
    dcf := dcfAfter s.dir d s.dcf
    dir := dirAfter s.dir d }

/-- The state EDGE leaves (R100). -/
def decodeEdge (a b an bn : Bool) (s : State) : State :=
  if s.cfg.complementCheck && complementMismatch a b an bn then bumpErr s
  else
    match qtrans s.prev (phaseCode a b) with
    | .none => { s with prev := phaseCode a b }
    | .invalid => bumpErr { s with prev := phaseCode a b }
    | .fwd => validStep (phaseCode a b) .cw s
    | .rev => validStep (phaseCode a b) .ccw s

/-- `emit(rec)` when the transport is ready; the record is dropped otherwise (R161, R163). -/
def emitIf (tx : Bool) (r : Record) (s : State) : State :=
  if tx = true then { s with tlmOut := s.tlmOut ++ [r] } else s

/-- The timestamp FINISH uses (R161, R32). -/
def timestamp (o : Operand) (s : State) : Nat :=
  match s.cfg.timeSource with
  | .iter => s.loopc
  | .external => timeIn s.cfg.timeW o

/-- The record of the closing window, its duration from the old OBST (R161). -/
def windowRecord (o : Operand) (s : State) : Record where
  ticks := s.tsmp
  dur := wrapSub s.cfg.timeW (timestamp o s) s.obst
  dir := s.dir
  chg := s.dcf

/-- The code of a fault (R202). DESIGN CHOICE: the spec numbers F_PRECOND alone, and the 0 of NONE is the model's, log
entry 16. -/
def faultCode : FaultCode → Nat
  | .none => 0
  | .precond => 1

/-- The code of a refusal (R202); the model's own reasons have none. -/
def refusalCode : Refusal → Option Nat
  | .badConfig => some 1
  | .beforeReset => some 2
  | .reservedKind _ => some 3
  | .reservedBits _ => some 4
  | .truncated _ => some 5
  | .disabled _ _ => some 6
  | _ => none

end Sys2Proof.Machine
end

