-- ==== Sys2Proof/Machine/Decoder.lean ====
section
/-! DEFINITION. The quadrature decoder's operation, EDGE (40_decoder.md R100). -/

namespace Sys2Proof.Machine

/-- EDGE (R100), at any PHASE. -/
def execEdge (a b an bn : Bool) (s : State) : Result :=
  whenStarted s (.next (decodeEdge a b an bn s))

end Sys2Proof.Machine
end

