-- ==== Sys2Proof/Machine/Ramp.lean ====
section
/-! DEFINITION. The velocity ramp controller's operations: SETV, SETA and RAMP (41_ramp.md R130 to R133). -/

namespace Sys2Proof.Machine

/-- SETV (R132): any pattern is stored as it is. -/
def execSetv (v : F32) (s : State) : Result :=
  whenStarted s (.next { s with tv := v })

/-- SETA (R133): any pattern is stored as it is. -/
def execSeta (v : F32) (s : State) : Result :=
  whenStarted s (.next { s with ta := v })

/-- `ramp_inputs_ok(TV, TA)` (R131). -/
def rampInputsOk (tv ta : F32) : Bool :=
  f32IsFinite tv && f32IsFinite ta && f32Le 0x00000000#32 ta

/-- maxStep, `m = f32_mul(TA, DT)`, recomputed at every RAMP (R130, D14). -/
def rampMax (s : State) : F32 := f32Mul s.ta s.cfg.dt

/-- The error, `e = f32_sub(TV, CV)` (R130). -/
def rampErr (s : State) : F32 := f32Sub s.tv s.cv

/-- CV after one step of the ramp (R130): exactly the target when `|e| ≤ m`, else one rounded step of `m` toward it. -/
def rampNext (s : State) : F32 :=
  if f32Le (f32Abs (rampErr s)) (rampMax s) then s.tv
  else if f32Gt (rampErr s) 0x00000000#32 then f32Add s.cv (rampMax s)
  else f32Sub s.cv (rampMax s)

/-- RAMP (R130). -/
def execRamp (s : State) : Result :=
  whenStarted s (whenPhase .ramp .pRamp s
    (if rampInputsOk s.tv s.ta then .next { s with cv := rampNext s, phase := .pCount }
     else raisePrecond s))

end Sys2Proof.Machine
end

