-- ==== Sys2Proof/Machine/Reporter.lean ====
section
/-! DEFINITION. The tick sampler and telemetry reporter's operations: COUNT and FINISH (42_reporter.md R160, R161). -/

namespace Sys2Proof.Machine

/-- The state COUNT leaves (R160): the increment comes before the comparison, and a due report samples and resets TICK in
this one step. ITER does not wrap (R211). -/
def countState (s : State) : State :=
  if s.iter + 1 = s.cfg.interval then
    { s with
      iter := s.iter + 1
      loopc := wrap s.cfg.timeW (s.loopc + 1)
      tsmp := s.tick
      tick := 0
      phase := .pFinish }
  else
    { s with
      iter := s.iter + 1
      loopc := wrap s.cfg.timeW (s.loopc + 1)
      phase := .pRamp }

/-- COUNT (R160). -/
def execCount (s : State) : Result :=
  whenStarted s (whenPhase .count .pCount s (.next (countState s)))

/-- The state FINISH leaves (R161): the record sampled from the state before, DCF cleared whatever tx is. -/
def finishState (tx : Bool) (o : Operand) (s : State) : State :=
  emitIf tx (windowRecord o s)
    { s with
      dcf := false
      obst := timestamp o s
      iter := 0
      phase := .pRamp }

/-- FINISH (R161). -/
def execFinish (tx : Bool) (o : Operand) (s : State) : Result :=
  whenStarted s (whenPhase (.finish tx o) .pFinish s (.next (finishState tx o s)))

end Sys2Proof.Machine
end

