-- ==== Sys2Proof/Machine/Reset.lean ====
section
/-! DEFINITION. RESET (70_reset_and_hazards.md R230, R231). -/

namespace Sys2Proof.Machine

/-- RESET (R230): before the first RESET and at every boundary after it, but no step once FAULT is set (R203). -/
def execReset (a b : Bool) (s : State) : Result :=
  unlessFaulted s (.next (loadReset a b s))

end Sys2Proof.Machine
end

