-- ==== Sys2Proof/Machine/Dispatch.lean ====
section
/-! DEFINITION. One arm per operation (00_scope.md R2). -/

namespace Sys2Proof.Machine

def exec (i : Instr) (s : State) : Host.Outcome State Fault Refusal :=
  match i with
  | .reset a b => Sys2Proof.Machine.execReset a b s
  | .edge a b an bn => Sys2Proof.Machine.execEdge a b an bn s
  | .setv v => Sys2Proof.Machine.execSetv v s
  | .seta v => Sys2Proof.Machine.execSeta v s
  | .ramp => Sys2Proof.Machine.execRamp s
  | .count => Sys2Proof.Machine.execCount s
  | .finish tx o => Sys2Proof.Machine.execFinish tx o s

end Sys2Proof.Machine
end

