-- ==== Sys2Proof/WellFormed.lean ====
section
/-! DEFINITION. When an operation is one that an operation word can say (30_encoding.md R72, R78): the operand bits
`o[31:TIME_W]` of FINISH are reserved and must be 0. Every other field is legal at each of its values (R74, R75). -/

namespace Sys2Proof

/-- `timeW` is the parameter TIME_W (00_scope.md R5). -/
def Instr.wellFormed (timeW : Nat) : Instr → Bool
  | .reset _ _ => true
  | .edge _ _ _ _ => true
  | .setv _ => true
  | .seta _ => true
  | .ramp => true
  | .count => true
  | .finish _ o => decide (o >>> timeW = 0#32)

end Sys2Proof
end

