-- ==== Sys2Proof/Decode.lean ====
section
/-! DEFINITION. Operation words to operations (30_encoding.md R71 to R73, R78), total on any list of words, and after it
the encoder written from the same tables (R72, R85). -/

namespace Sys2Proof

/-- Why a stream of words gives no operation. The first three are the decoder's refusals of R73; the last two are streams
that R76 does not speak of (log entries 4 and 5). -/
inductive DecodeError where
  | reservedKind (h : Header)
  | reservedBits (h : Header)
  | truncated (h : Header)
  | strayOperand (o : Operand)
  | noWords
  deriving DecidableEq, Repr

/-- `KIND = h[15:12]` (R70). -/
def headerKind (h : Header) : BitVec 4 := h.extractLsb' 12 4

/-- The kind map (R72); the codes 0x0 and 0x8 to 0xF are reserved (R78). -/
def kindOf (c : BitVec 4) : Option Kind :=
  if c = 0x1#4 then some .reset
  else if c = 0x2#4 then some .edge
  else if c = 0x3#4 then some .setv
  else if c = 0x4#4 then some .seta
  else if c = 0x5#4 then some .ramp
  else if c = 0x6#4 then some .count
  else if c = 0x7#4 then some .finish
  else none

/-- The match column of R72. -/
def kindMatch : Kind → Header
  | .reset => 0x1000#16
  | .edge => 0x2000#16
  | .setv => 0x3000#16
  | .seta => 0x4000#16
  | .ramp => 0x5000#16
  | .count => 0x6000#16
  | .finish => 0x7000#16

/-- The mask column of R72. -/
def kindMask : Kind → Header
  | .reset => 0xFFFC#16
  | .edge => 0xFFF0#16
  | .setv => 0xFFFF#16
  | .seta => 0xFFFF#16
  | .ramp => 0xFFFF#16
  | .count => 0xFFFF#16
  | .finish => 0xFFFE#16

/-- The reserved ARG bits of a kind (R72): the mask less KIND. -/
def reservedArg (k : Kind) : Header := kindMask k &&& 0x0FFF#16

/-- Which kinds are 48 bits long, header and one operand word (R71). -/
def hasOperand : Kind → Bool
  | .reset => false
  | .edge => false
  | .setv => true
  | .seta => true
  | .ramp => false
  | .count => false
  | .finish => true

/-- An operation with an operand word (R71, R73): the word that must follow header `h`, given to `f`. -/
def withOperand (h : Header) (rest : List SchedWord) (f : Operand → Except DecodeError Instr) :
    Except DecodeError (Instr × List SchedWord) :=
  match rest with
  | .operand o :: rest' =>
    match f o with
    | .ok i => .ok (i, rest')
    | .error e => .error e
  | .header _ :: _ => .error (.truncated h)
  | [] => .error (.truncated h)

/-- The fields of a header of kind `k` whose reserved bits are 0 (R73). -/
def decodeFields (timeW : Nat) (k : Kind) (h : Header) (rest : List SchedWord) :
    Except DecodeError (Instr × List SchedWord) :=
  match k with
  | .reset => .ok (.reset (h.getLsbD 1) (h.getLsbD 0), rest)
  | .edge => .ok (.edge (h.getLsbD 1) (h.getLsbD 0) (h.getLsbD 3) (h.getLsbD 2), rest)
  | .setv => withOperand h rest (fun o => .ok (.setv o))
  | .seta => withOperand h rest (fun o => .ok (.seta o))
  | .ramp => .ok (.ramp, rest)
  | .count => .ok (.count, rest)
  | .finish => withOperand h rest (fun o =>
      if o >>> timeW = 0#32 then .ok (.finish (h.getLsbD 0) o) else .error (.reservedBits h))

/-- R73 once the header is read: the kind, then its reserved bits, then its fields. -/
def decodeHeader (timeW : Nat) (h : Header) (rest : List SchedWord) : Except DecodeError (Instr × List SchedWord) :=
  match kindOf (headerKind h) with
  | none => .error (.reservedKind h)
  | some k => if h &&& reservedArg k ≠ 0#16 then .error (.reservedBits h) else decodeFields timeW k h rest

/-- The decoder: the next operation of a stream and the words after it, or the reason there is none. -/
def decode (timeW : Nat) : List SchedWord → Except DecodeError (Instr × List SchedWord)
  | [] => .error .noWords
  | .operand o :: _ => .error (.strayOperand o)
  | .header h :: rest => decodeHeader timeW h rest

/-- A one-bit field at bit `n` of a header (R75: zero-extended). -/
def bitAt (b : Bool) (n : Nat) : Header := (BitVec.ofBool b).zeroExtend 16 <<< n

/-- The encoder (R85), written from the operation word column. -/
def encode : Instr → List SchedWord
  | .reset a b => [.header (0x1000#16 ||| bitAt a 1 ||| bitAt b 0)]
  | .edge a b an bn => [.header (0x2000#16 ||| bitAt an 3 ||| bitAt bn 2 ||| bitAt a 1 ||| bitAt b 0)]
  | .setv v => [.header 0x3000#16, .operand v]
  | .seta v => [.header 0x4000#16, .operand v]
  | .ramp => [.header 0x5000#16]
  | .count => [.header 0x6000#16]
  | .finish tx o => [.header (0x7000#16 ||| bitAt tx 0), .operand o]

/-- The words of an instruction whose bits are `w`, numbered as spec/opcode_table.json numbers them: bits 15..0 are the
header, bits 47..16 the operand word of a kind that has one. Bits from `nbits` up are 0. -/
def tableWords (nbits w : Nat) : List SchedWord :=
  let v := w % 2 ^ nbits
  let h : Header := BitVec.ofNat 16 v
  match kindOf (headerKind h) with
  | none => [.header h]
  | some k => if hasOperand k then [.header h, .operand (BitVec.ofNat 32 (v / 2 ^ 16))] else [.header h]

/-- What the decoder reads from an instruction of the opcode table, at the parameter TIME_W = 32 that R5 gives. -/
def decodeTableWord (nbits w : Nat) : Option Instr :=
  match decode 32 (tableWords nbits w) with
  | .ok (i, _) => some i
  | .error _ => none

end Sys2Proof
end

