-- ==== Sys2Proof/Machine/Fetch.lean ====
section
/-! DEFINITION. Taking the next operation of the schedule: checks 1 and 2 of 60_exceptions.md R205, and placing an
operation where step takes its next one. -/

namespace Sys2Proof.Machine

/-- The refusal a decoding error is (R73, R78). -/
def decodeRefusal : DecodeError → Refusal
  | .reservedKind h => .reservedKind h
  | .reservedBits h => .reservedBits h
  | .truncated h => .truncated h
  | .strayOperand o => .strayOperand o
  | .noWords => .scheduleEnd

/-- The state once an operation's words have been taken: `rest` is what stays scheduled. -/
def advance (rest : List SchedWord) (s : State) : State := { s with sched := rest }

/-- The next operation and the state it runs on, or the refusal: the configuration first, then decoding (R205), log
entry 9. -/
def fetch (s : State) : Except Refusal (Instr × State) :=
  if configLegal s.cfg then
    match decode s.cfg.timeW s.sched with
    | .ok (i, rest) => .ok (i, advance rest s)
    | .error e => .error (decodeRefusal e)
  else .error .badConfig

/-- The position of the main loop that names an operation of this kind (R34); none for the other agents' operations. -/
def kindPhase : Kind → Option Phase
  | .ramp => some .pRamp
  | .count => some .pCount
  | .finish => some .pFinish
  | .reset => none
  | .edge => none
  | .setv => none
  | .seta => none

/-- PHASE set to the position that names the operation of header word `ws`, if that is a main-loop operation: PHASE stands
in for a program counter (R34), log entry 6. -/
def placePhase (ws : List SchedWord) (p : Phase) : Phase :=
  match ws with
  | .header h :: _ => ((kindOf (headerKind h)).bind kindPhase).getD p
  | .operand _ :: _ => p
  | [] => p

/-- `s` with the words `ws` put before its schedule, and the main loop at the position that presents them. -/
def placeWords (ws : List SchedWord) (s : State) : State :=
  { s with sched := ws ++ s.sched, phase := placePhase ws s.phase }

end Sys2Proof.Machine
end

