-- ==== Sys2Proof/Machine/Edges.lean ====
section
/-! DEFINITION. Edge events before they are EDGE operations (60_exceptions.md R206 to R208; 10_state.md R37): each change of
one of the four levels raises one event, events pend until an operation boundary, and the EDGE that handles one samples the
levels as they are when it runs. The block's registers are in State; this is the input side of it, which the environment
drives, and its EDGE operations are what a schedule holds (log entry 10). -/

namespace Sys2Proof.Machine

/-- The four encoder inputs (R37). -/
structure Levels where
  qa : Bool
  qb : Bool
  qaN : Bool
  qbN : Bool
  deriving DecidableEq, Repr

/-- The encoder inputs and the number of edge events not handled yet (R206). -/
structure EdgeInput where
  levels : Levels
  pending : Nat
  deriving DecidableEq, Repr

/-- One event for each level that changes (R206). -/
def edgeEvents (old new : Levels) : Nat :=
  (old.qa != new.qa).toNat + (old.qaN != new.qaN).toNat + (old.qb != new.qb).toNat + (old.qbN != new.qbN).toNat

/-- The inputs change to `new`: the events they raise join those that pend; none is lost or merged (R206, R61). -/
def changeLevels (new : Levels) (e : EdgeInput) : EdgeInput where
  levels := new
  pending := e.pending + edgeEvents e.levels new

/-- The EDGE that samples levels `l` (R100). -/
def sampleEdge (l : Levels) : Instr := .edge l.qa l.qb l.qaN l.qbN

/-- Handling one event clears it and runs one EDGE on the levels of that moment (R206, R237); none when nothing pends. -/
def serveEdge (e : EdgeInput) : Option (Instr × EdgeInput) :=
  match e.pending with
  | 0 => none
  | n + 1 => some (sampleEdge e.levels, { e with pending := n })

/-- All the events that pend, handled with no change of levels between them. -/
def serveAll : Nat → Levels → List Instr
  | 0, _ => []
  | n + 1, l => sampleEdge l :: serveAll n l

/-- The EDGE operations of a sequence of level changes, each change's events handled before the next change. -/
def edgesOfLevels : Levels → List Levels → List Instr
  | _, [] => []
  | l, l' :: ls => serveAll (edgeEvents l l') l' ++ edgesOfLevels l' ls

end Sys2Proof.Machine
end

