-- ==== Sys2Proof/Machine/Ports.lean ====
section
/-! DEFINITION. The output ports and the observation (10_state.md R36, R38; 30_encoding.md R84). Reading one changes nothing
(20_memory.md R64). No port is a field of State (log entry 11). -/

namespace Sys2Proof.Machine

/-- `vel_cmd` drives CV (R36, R138). -/
def velCmd (s : State) : F32 := s.cv

/-- The commanded direction is the sign bit of `vel_cmd` (R138): true when negative. -/
def velCmdNegative (s : State) : Bool := f32Sign (velCmd s)

/-- `dir_out`, the code of DIR (R36, R82). -/
def dirOut (s : State) : BitVec 2 := dirCode s.dir

/-- `err_out` drives ERR, ERR_W bits (R36). -/
def errOut (s : State) : BitVec s.cfg.errW := BitVec.ofNat s.cfg.errW s.err

/-- `tlm_rec`: the packed record `{chg, dir, dur, ticks}` (R84). -/
def packRecord (c : Config) (r : Record) : BitVec (1 + (2 + (c.timeW + c.tickW))) :=
  BitVec.ofBool r.chg ++ (dirCode r.dir ++ (BitVec.ofNat c.timeW r.dur ++ BitVec.ofNat c.tickW r.ticks))

/-- The hand-off of a step from `s` to `s'` (R36): `tlm_valid` is one strobe, with the record on `tlm_rec`, in the step that
emits one, and is absent in every other. -/
def tlmStrobe (s s' : State) : Option Record := (s'.tlmOut.drop s.tlmOut.length).head?

end Sys2Proof.Machine
end

