-- ==== Sys2Proof/Machine/Schedule.lean ====
section
/-! DEFINITION. The schedule syntax and its pseudo-operations (30_encoding.md R85, R86), as a tool expands and assembles
them: lines to operations to words (log entry 15). -/

namespace Sys2Proof.Machine

/-- A binary32 operand as it is written (R85): a pattern, or the decimal value (-1)^neg * num / den. -/
inductive F32Lit where
  | pattern (p : F32)
  | decimal (neg : Bool) (num den : Nat)
  deriving DecidableEq, Repr

/-- `bits32(f)` (R85). -/
def litBits : F32Lit → F32
  | .pattern p => p
  | .decimal neg num den => bits32 neg num den

/-- A line of a schedule (R85), the pseudo-operations STEP, ITER and RUN among them, with their operands where they are left
out (R86). -/
inductive SchedLine where
  | reset (a b : Bool)
  | edge (a b x y : Bool)
  | setv (f : F32Lit)
  | seta (f : F32Lit)
  | ramp
  | count
  | finish (tx : Bool) (t : Operand)
  | step (a b : Bool)
  | iter (tx : Bool := true) (t : Operand := 0#32)
  | run (n : Nat) (tx : Bool := true) (t : Operand := 0#32)
  deriving DecidableEq, Repr

/-- `STEP ab`: an edge with consistent complements (R86). -/
def expandStep (a b : Bool) : Instr := .edge a b (!a) (!b)

/-- ITER after a COUNT and the FINISH it may make due (R160, R161): the count a tool replays to expand ITER (R86). -/
def iterAfter (interval iter : Nat) : Nat := if iter + 1 = interval then 0 else iter + 1

/-- `ITER tx, t` at a count of `iter`: RAMP, COUNT, and FINISH exactly when that COUNT makes a report due (R86). -/
def expandIter (interval iter : Nat) (tx : Bool) (t : Operand) : List Instr :=
  [.ramp, .count] ++ (if iter + 1 = interval then [.finish tx t] else [])

/-- `RUN n, tx, t`: n consecutive copies of ITER, and the count after them (R86). -/
def expandRun (interval : Nat) (tx : Bool) (t : Operand) : Nat → Nat → List Instr × Nat
  | 0, iter => ([], iter)
  | n + 1, iter =>
    let r := expandRun interval tx t n (iterAfter interval iter)
    (expandIter interval iter tx t ++ r.1, r.2)

/-- One line's operations, and the count after it (R86: the expansion replays R160). -/
def expandLine (interval iter : Nat) : SchedLine → List Instr × Nat
  | .reset a b => ([.reset a b], 0)
  | .edge a b x y => ([.edge a b x y], iter)
  | .setv f => ([.setv (litBits f)], iter)
  | .seta f => ([.seta (litBits f)], iter)
  | .ramp => ([.ramp], iter)
  | .count => ([.count], iter + 1)
  | .finish tx t => ([.finish tx t], 0)
  | .step a b => ([expandStep a b], iter)
  | .iter tx t => (expandIter interval iter tx t, iterAfter interval iter)
  | .run n tx t => expandRun interval tx t n iter

/-- A schedule's operations, from a count of `iter`. -/
def expand (interval : Nat) : Nat → List SchedLine → List Instr
  | _, [] => []
  | iter, l :: ls => (expandLine interval iter l).1 ++ expand interval (expandLine interval iter l).2 ls

/-- The words of a list of operations, in schedule order (R76). -/
def encodeAll : List Instr → List SchedWord
  | [] => []
  | i :: is => encode i ++ encodeAll is

/-- A schedule's words (R85). -/
def assemble (interval iter : Nat) (ls : List SchedLine) : List SchedWord := encodeAll (expand interval iter ls)

end Sys2Proof.Machine
end

