-- ==== Sys2Proof/Safety.lean ====
section
/-! DEFINITION. The terms in which claims about runs are stated: the agents and enabledness (20_memory.md R53 to R58), runs
as lists and as infinite sequences of operations (R56, R65), the sample history of the decoder (40_decoder.md R102 to R105),
and the invariant of started states.
Fairness is a premise, no property of step (log entry 13). -/

namespace Sys2Proof.Safety

open Sys2Proof.Machine

/-- The four agents (R53). -/
inductive Agent where
  | decoder
  | mainLoop
  | host
  | environment
  deriving DecidableEq, Repr

/-- Who runs an operation (R53). -/
def agentOf : Instr → Agent
  | .reset _ _ => .environment
  | .edge _ _ _ _ => .decoder
  | .setv _ => .host
  | .seta _ => .host
  | .ramp => .mainLoop
  | .count => .mainLoop
  | .finish _ _ => .mainLoop

/-- The block has started and no fault has ended the run. -/
abbrev Running (s : State) : Prop := s.started = true ∧ s.fault = .none

/-- The PHASE that names a main-loop operation (R34, R57); the other operations need none. -/
def phaseOf : Instr → Option Phase
  | .reset _ _ => none
  | .edge _ _ _ _ => none
  | .setv _ => none
  | .seta _ => none
  | .ramp => some .pRamp
  | .count => some .pCount
  | .finish _ _ => some .pFinish

def isReset : Instr → Bool
  | .reset _ _ => true
  | .edge _ _ _ _ => false
  | .setv _ => false
  | .seta _ => false
  | .ramp => false
  | .count => false
  | .finish _ _ => false

def isEdge : Instr → Bool
  | .edge _ _ _ _ => true
  | .reset _ _ => false
  | .setv _ => false
  | .seta _ => false
  | .ramp => false
  | .count => false
  | .finish _ _ => false

def isFinish : Instr → Bool
  | .finish _ _ => true
  | .reset _ _ => false
  | .edge _ _ _ _ => false
  | .setv _ => false
  | .seta _ => false
  | .ramp => false
  | .count => false

def isCount : Instr → Bool
  | .count => true
  | .reset _ _ => false
  | .edge _ _ _ _ => false
  | .setv _ => false
  | .seta _ => false
  | .ramp => false
  | .finish _ _ => false

def isSetv : Instr → Bool
  | .setv _ => true
  | .reset _ _ => false
  | .edge _ _ _ _ => false
  | .seta _ => false
  | .ramp => false
  | .count => false
  | .finish _ _ => false

def isSeta : Instr → Bool
  | .seta _ => true
  | .reset _ _ => false
  | .edge _ _ _ _ => false
  | .setv _ => false
  | .ramp => false
  | .count => false
  | .finish _ _ => false

/-- A FINISH whose transport is ready (R161). -/
def isReadyFinish : Instr → Bool
  | .finish tx _ => tx
  | .reset _ _ => false
  | .edge _ _ _ _ => false
  | .setv _ => false
  | .seta _ => false
  | .ramp => false
  | .count => false

/-- The enabling condition of each operation ("Enabled when" of R100, R130, R132, R133, R160, R161, R230). -/
def Enabled (i : Instr) (s : State) : Prop :=
  (isReset i = true ∧ (s.started = true → s.fault = .none)) ∨
    (isReset i = false ∧ Running s ∧ ∀ p, phaseOf i = some p → s.phase = p)

/-- The operations of a run in order, stopping at the first that has no next state (R56). -/
def runOps : List Instr → State → Result
  | [], s => .next s
  | i :: is, s =>
    match exec i s with
    | .next s' => runOps is s'
    | .fault f => .fault f
    | .refused r => .refused r

/-- An infinite run: operation `n` takes state `n` to state `n + 1`. -/
def InfiniteRun (ops : Nat → Instr) (st : Nat → State) : Prop :=
  ∀ n, exec (ops n) (st n) = .next (st (n + 1))

/-- The main loop is weakly fair (R65): it takes infinitely many operations. -/
def WeaklyFair (ops : Nat → Instr) : Prop :=
  ∀ n, ∃ m, n ≤ m ∧ agentOf (ops m) = .mainLoop

/-- What one EDGE samples (R100). -/
structure Sample where
  a : Bool
  b : Bool
  an : Bool
  bn : Bool
  deriving DecidableEq, Repr

/-- The EDGE operations of a sequence of samples. -/
def edgesOf (xs : List Sample) : List Instr := xs.map fun x => .edge x.a x.b x.an x.bn

/-- The samples of the EDGE operations of a run, in order. -/
def samplesOf : List Instr → List Sample
  | [] => []
  | .edge a b an bn :: is => ⟨a, b, an, bn⟩ :: samplesOf is
  | .reset _ _ :: is => samplesOf is
  | .setv _ :: is => samplesOf is
  | .seta _ :: is => samplesOf is
  | .ramp :: is => samplesOf is
  | .count :: is => samplesOf is
  | .finish _ _ :: is => samplesOf is

/-- The sample passes the complement check (R100). -/
def accepted (c : Config) (x : Sample) : Bool := !(c.complementCheck && complementMismatch x.a x.b x.an x.bn)

/-- The phase codes of the samples that pass the complement check, in order. -/
def codes (c : Config) (xs : List Sample) : List (BitVec 2) :=
  (xs.filter (accepted c)).map fun x => phaseCode x.a x.b

/-- The classes of the transitions a sequence of phase codes makes from `p` (R101). -/
def classes : BitVec 2 → List (BitVec 2) → List TransClass
  | _, [] => []
  | p, c :: cs => qtrans p c :: classes c cs

/-- The direction of a valid transition (R101). -/
def classDir : TransClass → Option Direction
  | .fwd => some .cw
  | .rev => some .ccw
  | .none => none
  | .invalid => none

/-- The directions of the valid transitions of a sample sequence from `p`, in order. -/
def validDirs (c : Config) (p : BitVec 2) (xs : List Sample) : List Direction :=
  (classes p (codes c xs)).filterMap classDir

/-- Some direction of the list flips a known direction before it, `d` being the one before the first (R104). -/
def flips : Direction → List Direction → Bool
  | _, [] => false
  | d, e :: es => (d == .cw && e == .ccw) || (d == .ccw && e == .cw) || flips e es

/-- `x` lies in the closed interval between `a` and `b`, whichever is the lower (R134). -/
def Between (a x b : F32) : Prop :=
  (f32Le a x = true ∧ f32Le x b = true) ∨ (f32Le b x = true ∧ f32Le x a = true)

/-- A record is one that its widths hold and the decoder can produce (R84; a reversal needs a known direction). -/
def recordOk (c : Config) (r : Record) : Bool :=
  decide (r.ticks < 2 ^ c.tickW) && decide (r.dur < 2 ^ c.timeW) && !(r.dir == .unknown && r.chg)

/-- ITER and PHASE agree (R31): below INTERVAL between reports, INTERVAL while one is due. -/
def iterOk (s : State) : Prop :=
  (s.phase = .pFinish → s.iter = s.cfg.interval) ∧ (s.phase ≠ .pFinish → s.iter < s.cfg.interval)

/-- Every counter is below the modulus of its width (R7, R21). -/
def widthsOk (s : State) : Prop :=
  s.tick < 2 ^ s.cfg.tickW ∧ s.tsmp < 2 ^ s.cfg.tickW ∧ s.err < 2 ^ s.cfg.errW ∧
    s.iter < 2 ^ s.cfg.iterW ∧ s.loopc < 2 ^ s.cfg.timeW ∧ s.obst < 2 ^ s.cfg.timeW

/-- The invariant of the block: a legal configuration and sound records; and, once started, no fault, counters within
their widths, ITER as PHASE says, and no reversal latched while the direction is unknown (L2-4). Before the first RESET the
registers may hold anything (R232). -/
def Inv (s : State) : Prop :=
  configLegal s.cfg = true ∧ (∀ r ∈ s.tlmOut, recordOk s.cfg r = true) ∧
    (s.started = true → s.fault = .none ∧ widthsOk s ∧ iterOk s ∧ (s.dir = .unknown → s.dcf = false))

/-- CV is a finite number once the block has started (R134). -/
def CvFinite (s : State) : Prop := s.started = true → f32IsFinite s.cv = true

/-- The window clock in ITER mode (R166): the loop count less OBST is the iteration count, modulo 2^TIME_W. -/
def WindowClock (s : State) : Prop :=
  s.started = true → s.cfg.timeSource = .iter → wrapSub s.cfg.timeW s.loopc s.obst = wrap s.cfg.timeW s.iter

/-- Every emitted record lasts one window (R166). -/
def RecordsLastOneWindow (s : State) : Prop :=
  s.cfg.timeSource = .iter → ∀ r ∈ s.tlmOut, r.dur = wrap s.cfg.timeW s.cfg.interval

end Sys2Proof.Safety
end

