-- ==== Sys2Proof/Certificates/Slice0/Obligations.lean ====
section
/-! DEFINITION. The statements about the block, in the order of the spec's files: encodings, reset, the decoder, the ramp, the
reporter, the order of operations, the registers' writers, the invariants, the arithmetic, the ports and the schedule. -/

open Sys2Proof Sys2Proof.Machine Sys2Proof.Safety

/-! ### Encodings -/

/-- Decoding an encoded operation gives it back, whatever follows it (30_encoding.md section 1). Every operand value the
encoding admits is covered: `wellFormed` shuts out only the reserved operand bits of FINISH. -/
def Obligations.DecodeOfEncode : Prop :=
  ∀ (timeW : Nat) (i : Instr) (rest : List SchedWord),
    i.wellFormed timeW = true → decode timeW (encode i ++ rest) = .ok (i, rest)

/-- A stream that decodes begins with the encoding of the operation it decodes to: no two words mean one operation, and no
reserved bit is dropped (30_encoding.md section 1). -/
def Obligations.EncodeOfDecode : Prop :=
  ∀ (timeW : Nat) (ws : List SchedWord) (i : Instr) (rest : List SchedWord),
    decode timeW ws = .ok (i, rest) → i.wellFormed timeW = true ∧ ws = encode i ++ rest

/-- Words of 95_test_vectors.md L2-1 decode as that table says. -/
def Obligations.SpecWordsDecode : Prop :=
  decode 32 [.header 0x1003#16] = .ok (.reset true true, []) ∧
  decode 32 [.header 0x2009#16] = .ok (.edge false true true false, []) ∧
  decode 32 [.header 0x3000#16, .operand 0x42C80000#32] = .ok (.setv 0x42C80000#32, []) ∧
  decode 32 [.header 0x4000#16, .operand 0x7FC00000#32] = .ok (.seta 0x7FC00000#32, []) ∧
  decode 32 [.header 0x5000#16] = .ok (.ramp, []) ∧
  decode 32 [.header 0x6000#16] = .ok (.count, []) ∧
  decode 32 [.header 0x7000#16, .operand 0x00010000#32] = .ok (.finish false 0x00010000#32, []) ∧
  decode 16 [.header 0x7000#16, .operand 0x00010000#32] = .error (.reservedBits 0x7000#16)

/-- R78: the reserved kinds, a reserved ARG bit (the mask of each kind), and the reserved operand bits of FINISH are refused,
with nothing executed. -/
def Obligations.IllegalHeadersRefused : Prop :=
  ∀ (s : State) (h : Header) (rest : List SchedWord),
    configLegal s.cfg = true → s.sched = .header h :: rest →
      (((h >>> 12).toNat = 0 ∨ 8 ≤ (h >>> 12).toNat) → step s = .refused (.reservedKind h)) ∧
      (((h >>> 12).toNat = 1 ∧ h &&& 0x0FFC#16 ≠ 0#16) ∨
       ((h >>> 12).toNat = 2 ∧ h &&& 0x0FF0#16 ≠ 0#16) ∨
       (3 ≤ (h >>> 12).toNat ∧ (h >>> 12).toNat ≤ 6 ∧ h &&& 0x0FFF#16 ≠ 0#16) ∨
       ((h >>> 12).toNat = 7 ∧ h &&& 0x0FFE#16 ≠ 0#16) →
        step s = .refused (.reservedBits h)) ∧
      (∀ o rest', (h = 0x7000#16 ∨ h = 0x7001#16) → rest = .operand o :: rest' → 2 ^ s.cfg.timeW ≤ o.toNat →
        step s = .refused (.reservedBits h))

/-- R71: KIND alone fixes how many words an operation takes, and a schedule that ends between a header and its operand is
refused with RF_TRUNCATED. -/
def Obligations.KindFixesLength : Prop :=
  (∀ (timeW : Nat) (h : Header) (rest : List SchedWord) (i : Instr) (rest' : List SchedWord),
    decode timeW (.header h :: rest) = .ok (i, rest') →
      if (h >>> 12).toNat = 3 ∨ (h >>> 12).toNat = 4 ∨ (h >>> 12).toNat = 7
      then ∃ o, rest = .operand o :: rest' else rest' = rest) ∧
  (∀ (s : State) (h : Header), configLegal s.cfg = true → s.sched = [.header h] →
    (h = 0x3000#16 ∨ h = 0x4000#16 ∨ h = 0x7000#16 ∨ h = 0x7001#16) → step s = .refused (.truncated h))

/-- When the words next in the schedule decode to an operation, step is exec of it on the state with those words taken and
nothing else changed (20_memory.md section 4, 30_encoding.md section 1; the schedule as a field is log entry 4). -/
def Obligations.StepRunsTheDecodedOperation : Prop :=
  ∀ (s : State) (i : Instr) (rest : List SchedWord),
    configLegal s.cfg = true → decode s.cfg.timeW s.sched = .ok (i, rest) → step s = exec i { s with sched := rest }

/-- R6: a configuration outside the ranges of R5 is refused as a whole. -/
def Obligations.IllegalConfigurationRefused : Prop :=
  ∀ s : State,
    ¬(1 ≤ s.cfg.interval ∧ s.cfg.interval < 2 ^ s.cfg.iterW ∧
      f32IsFinite s.cfg.dt = true ∧ f32Gt s.cfg.dt 0#32 = true ∧
      1 ≤ s.cfg.tickW ∧ s.cfg.tickW ≤ 32 ∧ 1 ≤ s.cfg.errW ∧ s.cfg.errW ≤ 32 ∧
      1 ≤ s.cfg.timeW ∧ s.cfg.timeW ≤ 32) →
    step s = .refused .badConfig

/-! ### Reset -/

/-- R230: the encoding of RESET, the state it leaves from every state that admits it, and no step once FAULT is set. -/
def Obligations.ResetOperation : Prop :=
  (∀ a b : Bool, encode (.reset a b) = [.header (BitVec.ofNat 16 (0x1000 + 2 * a.toNat + b.toNat))]) ∧
  ∀ (a b : Bool) (s : State),
    (s.started = false ∨ s.fault = .none →
      exec (.reset a b) s = .next
        { cfg := s.cfg, prev := phaseCode a b, dir := .unknown, dcf := false, tick := 0, err := 0, tsmp := 0,
          tv := 0x00000000#32, ta := 0x00000000#32, cv := 0x00000000#32, iter := 0, loopc := 0, obst := 0,
          phase := .pRamp, fault := .none, started := true, tlmOut := s.tlmOut, sched := s.sched }) ∧
    (s.started = true → s.fault ≠ .none → exec (.reset a b) s = .fault (.noStep s))

/-- R231: RESET comes at any operation boundary, and nothing of the block survives it but TLM_OUT (and the model's own
configuration and schedule): what it leaves does not depend on any register. -/
def Obligations.ResetForgetsEveryRegister : Prop :=
  ∀ (a b : Bool) (s s' : State),
    (s.started = false ∨ s.fault = .none) → (s'.started = false ∨ s'.fault = .none) →
    s.cfg = s'.cfg → s.tlmOut = s'.tlmOut → s.sched = s'.sched →
    ∃ t, exec (.reset a b) s = .next t ∧ exec (.reset a b) s' = .next t ∧ t.tlmOut = s.tlmOut ∧ t.phase = .pRamp

/-- The model's State.reset is what a power-on RESET with the levels 0 and 0 leaves from any state before the first RESET
that has the standard configuration, an empty schedule and no records. The levels and the value of DT in it are the model's
choice (log entries 2 and 3). -/
def Obligations.ResetStateIsAfterPowerOn : Prop :=
  ∀ s : State, s.started = false → s.cfg = Config.standard → s.tlmOut = [] → s.sched = [] →
    exec (.reset false false) s = .next State.reset

/-- R232: before the first RESET every operation but RESET is refused with RF_BEFORE_RESET, and a RESET with the levels at
power-on starts the run. -/
def Obligations.OnlyResetBeforeTheFirstReset : Prop :=
  ∀ (i : Instr) (s : State), s.started = false →
    (isReset i = false → exec i s = .refused .beforeReset) ∧
    (∀ a b, i = .reset a b → ∃ t, exec i s = .next t ∧ t.started = true ∧ t.prev = phaseCode a b)

/-- R233: after RESET the main loop's next operation is RAMP, and edge events and host writes are accepted at once. -/
def Obligations.AfterResetRampIsNext : Prop :=
  ∀ (a b : Bool) (s t : State), exec (.reset a b) s = .next t →
    (∃ u, exec .ramp t = .next u) ∧
    exec .count t = .refused (.disabled .count .pRamp) ∧
    (∀ tx o, exec (.finish tx o) t = .refused (.disabled (.finish tx o) .pRamp)) ∧
    (∀ a' b' an bn, ∃ u, exec (.edge a' b' an bn) t = .next u) ∧
    (∀ v, ∃ u, exec (.setv v) t = .next u) ∧
    (∀ v, ∃ u, exec (.seta v) t = .next u)

/-- After RESET the velocity command stays +0.0 until the host writes a target velocity (70_reset_and_hazards.md section 2,
item 3). -/
def Obligations.VelocityZeroUntilTargetWritten : Prop :=
  ∀ (a b : Bool) (s0 s t : State) (ops : List Instr),
    configLegal s0.cfg = true → exec (.reset a b) s0 = .next s → ops.all (fun i => !isSetv i) = true →
    runOps ops s = .next t → velCmd t = 0x00000000#32

/-! ### The decoder -/

/-- R80 and R82: the phase code is 2A + B, with the clockwise sequence 0, 1, 3, 2, 0; the direction codes are 01, 00 and 11,
the two's complement of +1, 0 and -1, and negating a direction negates its code. -/
def Obligations.PhaseAndDirectionCodes : Prop :=
  (∀ a b : Bool, (phaseCode a b).toNat = 2 * a.toNat + b.toNat) ∧
  qtrans 0#2 1#2 = .fwd ∧ qtrans 1#2 3#2 = .fwd ∧ qtrans 3#2 2#2 = .fwd ∧ qtrans 2#2 0#2 = .fwd ∧
  dirCode .cw = 0b01#2 ∧ dirCode .unknown = 0b00#2 ∧ dirCode .ccw = 0b11#2 ∧ (∀ d, dirCode d ≠ 0b10#2) ∧
  (dirCode .cw).toInt = 1 ∧ (dirCode .unknown).toInt = 0 ∧ (dirCode .ccw).toInt = -1 ∧
  (∀ d, dirCode (dirNeg d) = -dirCode d)

/-- R101: the sixteen entries of QTRANS; NONE is exactly no change, INVALID exactly both bits changed; FWD is direction +1
and a tick, REV direction -1 and a tick, the other two neither. -/
def Obligations.TransitionTable : Prop :=
  qtrans 0b00#2 0b00#2 = .none ∧ qtrans 0b00#2 0b01#2 = .fwd ∧ qtrans 0b00#2 0b10#2 = .rev ∧
  qtrans 0b00#2 0b11#2 = .invalid ∧ qtrans 0b01#2 0b00#2 = .rev ∧ qtrans 0b01#2 0b01#2 = .none ∧
  qtrans 0b01#2 0b10#2 = .invalid ∧ qtrans 0b01#2 0b11#2 = .fwd ∧ qtrans 0b10#2 0b00#2 = .fwd ∧
  qtrans 0b10#2 0b01#2 = .invalid ∧ qtrans 0b10#2 0b10#2 = .none ∧ qtrans 0b10#2 0b11#2 = .rev ∧
  qtrans 0b11#2 0b00#2 = .invalid ∧ qtrans 0b11#2 0b01#2 = .rev ∧ qtrans 0b11#2 0b10#2 = .fwd ∧
  qtrans 0b11#2 0b11#2 = .none ∧
  (∀ p c, qtrans p c = .none ↔ p = c) ∧ (∀ p c, qtrans p c = .invalid ↔ p ^^^ c = 0b11#2) ∧
  (∀ (a b an bn : Bool) (s : State), Running s → s.cfg.complementCheck = false →
    ∃ t, exec (.edge a b an bn) s = .next t ∧
      (qtrans s.prev (phaseCode a b) = .fwd → t.dir = .cw ∧ t.tick = (s.tick + 1) % 2 ^ s.cfg.tickW) ∧
      (qtrans s.prev (phaseCode a b) = .rev → t.dir = .ccw ∧ t.tick = (s.tick + 1) % 2 ^ s.cfg.tickW) ∧
      (qtrans s.prev (phaseCode a b) = .none ∨ qtrans s.prev (phaseCode a b) = .invalid →
        t.dir = s.dir ∧ t.tick = s.tick))

/-- R100: the encoding of EDGE; its effect on a running block at any PHASE, by the complement check and then by class; and
what it answers otherwise. -/
def Obligations.EdgeOperation : Prop :=
  (∀ a b an bn : Bool, encode (.edge a b an bn) =
    [.header (BitVec.ofNat 16 (0x2000 + 8 * an.toNat + 4 * bn.toNat + 2 * a.toNat + b.toNat))]) ∧
  ∀ (a b an bn : Bool) (s : State),
    (s.started = false → exec (.edge a b an bn) s = .refused .beforeReset) ∧
    (s.started = true → s.fault ≠ .none → exec (.edge a b an bn) s = .fault (.noStep s)) ∧
    (Running s →
      if s.cfg.complementCheck = true ∧ (an = a ∨ bn = b) then
        exec (.edge a b an bn) s = .next { s with err := (s.err + 1) % 2 ^ s.cfg.errW }
      else
        (qtrans s.prev (phaseCode a b) = .none →
          exec (.edge a b an bn) s = .next { s with prev := phaseCode a b }) ∧
        (qtrans s.prev (phaseCode a b) = .invalid →
          exec (.edge a b an bn) s =
            .next { s with prev := phaseCode a b, err := (s.err + 1) % 2 ^ s.cfg.errW }) ∧
        (qtrans s.prev (phaseCode a b) = .fwd →
          exec (.edge a b an bn) s =
            .next { s with
              prev := phaseCode a b, tick := (s.tick + 1) % 2 ^ s.cfg.tickW, dir := .cw,
              dcf := if s.dir = .ccw then true else s.dcf }) ∧
        (qtrans s.prev (phaseCode a b) = .rev →
          exec (.edge a b an bn) s =
            .next { s with
              prev := phaseCode a b, tick := (s.tick + 1) % 2 ^ s.cfg.tickW, dir := .ccw,
              dcf := if s.dir = .cw then true else s.dcf }))

/-- 40_decoder.md section 3 (R103, which the spec derives from R100): after a run DIR is the direction of the last valid
transition among its EDGEs, or as it was if there is none. No other operation but RESET touches it. -/
def Obligations.DirectionOfLastValidTransition : Prop :=
  ∀ (ops : List Instr) (s t : State),
    ops.all (fun i => !isReset i) = true → runOps ops s = .next t →
    t.dir = (validDirs s.cfg s.prev (samplesOf ops)).getLast?.getD s.dir

/-- 40_decoder.md section 3 (R104, which the spec derives from R100): with no FINISH and no RESET inside, DCF after a run is
DCF before it, or the fact that some valid transition flipped a known direction. -/
def Obligations.LatchRecordsReversals : Prop :=
  ∀ (ops : List Instr) (s t : State),
    ops.all (fun i => !isReset i && !isFinish i) = true → runOps ops s = .next t →
    t.dcf = (s.dcf || flips s.dir (validDirs s.cfg s.prev (samplesOf ops)))

/-- 40_decoder.md section 3 (R105, which the spec derives from R100 and R101): with no COUNT and no RESET between EDGEs, TICK
grows by the number of valid transitions, either direction, modulo 2^TICK_W; one full cycle in either direction adds 4. -/
def Obligations.TickCountsValidTransitions : Prop :=
  (∀ (ops : List Instr) (s t : State),
    s.tick < 2 ^ s.cfg.tickW → ops.all (fun i => !isReset i && !isCount i) = true → runOps ops s = .next t →
    t.tick = (s.tick + (validDirs s.cfg s.prev (samplesOf ops)).length) % 2 ^ s.cfg.tickW) ∧
  (∀ c, (validDirs c 0b00#2
      [⟨false, true, true, false⟩, ⟨true, true, false, false⟩, ⟨true, false, false, true⟩, ⟨false, false, true, true⟩]).length
      = 4 ∧
    (validDirs c 0b00#2
      [⟨true, false, false, true⟩, ⟨true, true, false, false⟩, ⟨false, true, true, false⟩, ⟨false, false, true, true⟩]).length
      = 4)

/-- 40_decoder.md section 3 (R102, which the spec derives from R100 and R101): the decoder registers after a run are
determined by what they were and by the samples of its EDGEs: two runs that agree on both agree on them, whatever else they
hold, COUNT, FINISH and RESET apart. -/
def Obligations.DecoderIsAFunctionOfTheSamples : Prop :=
  ∀ (ops ops' : List Instr) (s s' t t' : State),
    s.cfg = s'.cfg → s.prev = s'.prev → s.dir = s'.dir → s.dcf = s'.dcf → s.tick = s'.tick → s.err = s'.err →
    ops.all (fun i => !isReset i && !isCount i && !isFinish i) = true →
    ops'.all (fun i => !isReset i && !isCount i && !isFinish i) = true →
    samplesOf ops = samplesOf ops' → runOps ops s = .next t → runOps ops' s' = .next t' →
    t.prev = t'.prev ∧ t.dir = t'.dir ∧ t.dcf = t'.dcf ∧ t.tick = t'.tick ∧ t.err = t'.err

/-- 40_decoder.md section 3 (R106, which the spec derives from R100): an INVALID or NONE transition or a complement mismatch
leaves DIR, DCF and TICK unchanged, and no EDGE writes 0 to DIR. -/
def Obligations.NeverGuessADirection : Prop :=
  ∀ (a b an bn : Bool) (s : State), Running s →
    ∃ t, exec (.edge a b an bn) s = .next t ∧
      ((qtrans s.prev (phaseCode a b) = .invalid ∨ qtrans s.prev (phaseCode a b) = .none ∨
        (s.cfg.complementCheck = true ∧ (an = a ∨ bn = b))) →
          t.dir = s.dir ∧ t.dcf = s.dcf ∧ t.tick = s.tick) ∧
      (t.dir = .unknown → s.dir = .unknown)

/-- Edge events (60_exceptions.md section 3; the input side as a definition of its own is the model's choice, log entry 10).
A change of levels raises one event for each of the four levels that differs, and each event is one EDGE of the four levels
as they are when it is handled; handling one takes one away, and none is handled when none pends. Without the complement
check every EDGE of the same levels after the first changes nothing. -/
def Obligations.RepeatedSamplesChangeNothing : Prop :=
  (∀ (n : Nat) (l : Levels) (s : State), s.cfg.complementCheck = false → Running s →
    runOps (serveAll (n + 1) l) s = exec (.edge l.qa l.qb l.qaN l.qbN) s) ∧
  (∀ (l l' : Levels) (k : Nat),
    k = (if l.qa = l'.qa then 0 else 1) + (if l.qaN = l'.qaN then 0 else 1) +
        (if l.qb = l'.qb then 0 else 1) + (if l.qbN = l'.qbN then 0 else 1) →
      (∀ ls : List Levels, edgesOfLevels l (l' :: ls) =
        List.replicate k (.edge l'.qa l'.qb l'.qaN l'.qbN) ++ edgesOfLevels l' ls) ∧
      (∀ n : Nat, changeLevels l' ⟨l, n⟩ = ⟨l', n + k⟩)) ∧
  (∀ (n : Nat) (l : Levels),
    serveAll n l = List.replicate n (.edge l.qa l.qb l.qaN l.qbN) ∧
    serveEdge ⟨l, n + 1⟩ = some (.edge l.qa l.qb l.qaN l.qbN, ⟨l, n⟩) ∧
    serveEdge ⟨l, 0⟩ = none ∧ edgesOfLevels l [] = [])

/-! ### The ramp -/

/-- R131: ramp_inputs_ok is true exactly when the target velocity is finite and the target acceleration is finite and not
below 0, both zeros included; RAMP turns a violation into F_PRECOND. -/
def Obligations.RampInputPrecondition : Prop :=
  (∀ tv ta : F32, rampInputsOk tv ta = true ↔
    f32IsFinite tv = true ∧ f32IsFinite ta = true ∧ 0 ≤ f32Value ta) ∧
  (∀ s : State, Running s → s.phase = .pRamp →
    ¬(f32IsFinite s.tv = true ∧ f32IsFinite s.ta = true ∧ 0 ≤ f32Value s.ta) →
    exec .ramp s = .fault (.precond { s with fault := .precond }))

/-- R130: the encoding of RAMP, its three branches, and what it answers otherwise. -/
def Obligations.RampOperation : Prop :=
  encode .ramp = [.header 0x5000#16] ∧
  ∀ s : State,
    (s.started = false → exec .ramp s = .refused .beforeReset) ∧
    (s.started = true → s.fault ≠ .none → exec .ramp s = .fault (.noStep s)) ∧
    (Running s → s.phase ≠ .pRamp → exec .ramp s = .refused (.disabled .ramp s.phase)) ∧
    (Running s → s.phase = .pRamp → rampInputsOk s.tv s.ta = false →
      exec .ramp s = .fault (.precond { s with fault := .precond })) ∧
    (Running s → s.phase = .pRamp → rampInputsOk s.tv s.ta = true →
      exec .ramp s = .next { s with
        phase := .pCount
        cv :=
          if f32Le (f32Abs (f32Sub s.tv s.cv)) (f32Mul s.ta s.cfg.dt) = true then s.tv
          else if f32Gt (f32Sub s.tv s.cv) 0x00000000#32 = true then f32Add s.cv (f32Mul s.ta s.cfg.dt)
          else f32Sub s.cv (f32Mul s.ta s.cfg.dt) })

/-- R203: a RAMP whose inputs fail writes FAULT and nothing else, and from the state it leaves no operation has a step, RESET
included. -/
def Obligations.PreconditionFaultIsFinal : Prop :=
  ∀ s : State, Running s → s.phase = .pRamp → rampInputsOk s.tv s.ta = false →
    exec .ramp s = .fault (.precond { s with fault := .precond }) ∧
    (∀ i : Instr, exec i { s with fault := .precond } = .fault (.noStep { s with fault := .precond }))

/-- R132: SETV stores any pattern at any PHASE, and touches nothing else. -/
def Obligations.SetvOperation : Prop :=
  (∀ v : F32, encode (.setv v) = [.header 0x3000#16, .operand v]) ∧
  ∀ (v : F32) (s : State),
    (Running s → exec (.setv v) s = .next { s with tv := v }) ∧
    (s.started = false → exec (.setv v) s = .refused .beforeReset) ∧
    (s.started = true → s.fault ≠ .none → exec (.setv v) s = .fault (.noStep s))

/-- R133: SETA stores any pattern at any PHASE, and touches nothing else. -/
def Obligations.SetaOperation : Prop :=
  (∀ v : F32, encode (.seta v) = [.header 0x4000#16, .operand v]) ∧
  ∀ (v : F32) (s : State),
    (Running s → exec (.seta v) s = .next { s with ta := v }) ∧
    (s.started = false → exec (.seta v) s = .refused .beforeReset) ∧
    (s.started = true → s.fault ≠ .none → exec (.seta v) s = .fault (.noStep s))

/-- 41_ramp.md section 3 (R134, which the spec derives from R130 and R131): with CV finite and the inputs well formed a RAMP
leaves CV finite and in the closed interval between the old CV and TV; so a whole run that leaves TV alone never takes CV
past it. -/
def Obligations.NoOvershoot : Prop :=
  (∀ s : State, configLegal s.cfg = true → Running s → s.phase = .pRamp → rampInputsOk s.tv s.ta = true →
    f32IsFinite s.cv = true →
    ∃ t, exec .ramp s = .next t ∧ f32IsFinite t.cv = true ∧ Between s.cv t.cv s.tv) ∧
  (∀ (ops : List Instr) (s t : State), configLegal s.cfg = true → f32IsFinite s.cv = true → f32IsFinite s.tv = true →
    ops.all (fun i => !isReset i && !isSetv i) = true → runOps ops s = .next t →
    f32IsFinite t.cv = true ∧ Between s.cv t.cv s.tv)

/-- 41_ramp.md section 3 (R135, which the spec derives from R130): when m is a zero and TV differs from CV, RAMP leaves CV's
number as it was, forever; the only pattern that changes is -0, to +0, in two cases. A zero TA makes m a zero. -/
def Obligations.FrozenRamp : Prop :=
  (∀ s : State, configLegal s.cfg = true → Running s → s.phase = .pRamp → rampInputsOk s.tv s.ta = true →
    f32IsFinite s.cv = true → f32Mag (f32Mul s.ta s.cfg.dt) = 0 → f32Value s.tv ≠ f32Value s.cv →
    exec .ramp s = .next { s with
      phase := .pCount
      cv :=
        if s.cv = 0x80000000#32 ∧
            ((0 < f32Value s.tv ∧ f32Mul s.ta s.cfg.dt = 0x00000000#32) ∨
              (f32Value s.tv < 0 ∧ f32Mul s.ta s.cfg.dt = 0x80000000#32))
        then 0x00000000#32 else s.cv }) ∧
  (∀ (ops : List Instr) (s t : State), configLegal s.cfg = true → f32IsFinite s.cv = true → f32IsFinite s.tv = true →
    f32IsFinite s.ta = true → f32Mag (f32Mul s.ta s.cfg.dt) = 0 → f32Value s.tv ≠ f32Value s.cv →
    ops.all (fun i => !isReset i && !isSetv i && !isSeta i) = true → runOps ops s = .next t →
    f32Value t.cv = f32Value s.cv) ∧
  (∀ s : State, configLegal s.cfg = true → f32Mag s.ta = 0 → f32Mag (f32Mul s.ta s.cfg.dt) = 0)

/-- A target once reached is held, and the source's iteration bound fails at 2^24: CV = 16777216, TV = 33554432, TA = DT =
1.0 never moves (41_ramp.md section 3). -/
def Obligations.TargetHeldAndBoundFails : Prop :=
  (∀ s : State, configLegal s.cfg = true → Running s → s.phase = .pRamp → rampInputsOk s.tv s.ta = true →
    s.cv = s.tv → exec .ramp s = .next { s with phase := .pCount }) ∧
  (∀ s : State, Running s → s.phase = .pRamp → s.cfg.dt = 0x3F800000#32 → s.ta = 0x3F800000#32 →
    s.cv = 0x4B800000#32 → s.tv = 0x4C000000#32 → exec .ramp s = .next { s with phase := .pCount })

/-- R137: RAMP reads neither DIR nor DCF and clears neither: with any other direction and flag it answers the same, those two
registers apart. -/
def Obligations.RampIgnoresSensedDirection : Prop :=
  ∀ (s t : State) (d : Direction) (f : Bool), exec .ramp s = .next t →
    t.dir = s.dir ∧ t.dcf = s.dcf ∧
    exec .ramp { s with dir := d, dcf := f } = .next { t with dir := d, dcf := f }

/-! ### The reporter -/

/-- R160: the encoding of COUNT, its effect, and what it answers otherwise. -/
def Obligations.CountOperation : Prop :=
  encode .count = [.header 0x6000#16] ∧
  ∀ s : State,
    (s.started = false → exec .count s = .refused .beforeReset) ∧
    (s.started = true → s.fault ≠ .none → exec .count s = .fault (.noStep s)) ∧
    (Running s → s.phase ≠ .pCount → exec .count s = .refused (.disabled .count s.phase)) ∧
    (Running s → s.phase = .pCount → s.iter + 1 = s.cfg.interval →
      exec .count s = .next { s with
        iter := s.cfg.interval, loopc := (s.loopc + 1) % 2 ^ s.cfg.timeW, tsmp := s.tick, tick := 0, phase := .pFinish }) ∧
    (Running s → s.phase = .pCount → s.iter + 1 ≠ s.cfg.interval →
      exec .count s = .next { s with
        iter := s.iter + 1, loopc := (s.loopc + 1) % 2 ^ s.cfg.timeW, phase := .pRamp })

/-- R161: the encoding of FINISH, its effect with the timestamp of either time source and with the transport ready or not,
and what it answers otherwise. -/
def Obligations.FinishOperation : Prop :=
  (∀ (tx : Bool) (o : Operand), encode (.finish tx o) = [.header (BitVec.ofNat 16 (0x7000 + tx.toNat)), .operand o]) ∧
  ∀ (tx : Bool) (o : Operand) (s : State),
    (s.started = false → exec (.finish tx o) s = .refused .beforeReset) ∧
    (s.started = true → s.fault ≠ .none → exec (.finish tx o) s = .fault (.noStep s)) ∧
    (Running s → s.phase ≠ .pFinish → exec (.finish tx o) s = .refused (.disabled (.finish tx o) s.phase)) ∧
    (Running s → s.phase = .pFinish → ∀ now : Nat,
      now = (if s.cfg.timeSource = .iter then s.loopc else o.toNat % 2 ^ s.cfg.timeW) →
      exec (.finish tx o) s = .next { s with
        dcf := false, obst := now, iter := 0, phase := .pRamp,
        tlmOut :=
          if tx = true then
            s.tlmOut ++ [{ ticks := s.tsmp, dur := (((now : Int) - (s.obst : Int)) % 2 ^ s.cfg.timeW).toNat,
                           dir := s.dir, chg := s.dcf }]
          else s.tlmOut })

/-- 42_reporter.md section 3 (R163 and R168, which the spec derives from R161): when the transport is not ready the record is
lost and the window restarts exactly as if it had been sent; DCF is cleared either way, and a FINISH that finds it 0 writes 0
and reports 0. -/
def Obligations.DroppedWindowRestarts : Prop :=
  ∀ (o : Operand) (s : State), Running s → s.phase = .pFinish →
    ∃ t r, exec (.finish true o) s = .next t ∧ t.tlmOut = s.tlmOut ++ [r] ∧
      exec (.finish false o) s = .next { t with tlmOut := s.tlmOut } ∧
      t.dcf = false ∧ t.iter = 0 ∧ t.tick = s.tick ∧ t.phase = .pRamp ∧
      (s.dcf = false → r.chg = false) ∧
      t.obst = if s.cfg.timeSource = .iter then s.loopc else o.toNat % 2 ^ s.cfg.timeW

/-- 42_reporter.md section 3 (R164, which the spec derives from R160 and R161): after N completed iterations since RESET
exactly N / INTERVAL FINISH operations have run, the k-th in iteration k * INTERVAL, and as many records were emitted as
FINISHes found the transport ready. -/
def Obligations.ReportCount : Prop :=
  ∀ (a b : Bool) (s0 s : State), 1 ≤ s0.cfg.interval → exec (.reset a b) s0 = .next s →
    (∀ (ops : List Instr) (t : State), ops.all (fun i => !isReset i) = true → runOps ops s = .next t →
      ops.countP isFinish = (ops.countP isCount - if t.phase = .pFinish then 1 else 0) / s0.cfg.interval ∧
      t.tlmOut.length = s.tlmOut.length + ops.countP isReadyFinish ∧
      (ops.all (fun i => !isFinish i || isReadyFinish i) = true →
        t.tlmOut.length = s.tlmOut.length +
          (ops.countP isCount - if t.phase = .pFinish then 1 else 0) / s0.cfg.interval)) ∧
    (∀ (ops : List Instr) (tx : Bool) (o : Operand) (t : State), ops.all (fun i => !isReset i) = true →
      runOps (ops ++ [.finish tx o]) s = .next t →
      ops.countP isCount = (ops.countP isFinish + 1) * s0.cfg.interval)

/-- EDGEs between the COUNT that makes a report due and its FINISH: their ticks belong to the next window, their direction
and their reversals to this record (20_memory.md section 3, 42_reporter.md section 3). -/
def Obligations.EdgesBetweenCountAndFinish : Prop :=
  ∀ (xs : List Sample) (o : Operand) (s : State),
    Running s → s.phase = .pCount → s.iter + 1 = s.cfg.interval →
    ∃ t r, runOps ([.count] ++ edgesOf xs ++ [.finish true o]) s = .next t ∧ t.tlmOut = s.tlmOut ++ [r] ∧
      r.ticks = s.tick ∧ r.dir = (validDirs s.cfg s.prev xs).getLast?.getD s.dir ∧
      r.chg = (s.dcf || flips s.dir (validDirs s.cfg s.prev xs)) ∧
      t.tick = (validDirs s.cfg s.prev xs).length % 2 ^ s.cfg.tickW ∧ t.dcf = false

/-- Every valid transition since RESET is in exactly one record's tick field, or still in TICK, or in TSMP while a report is
due, modulo 2^TICK_W, when every record is sent (42_reporter.md section 3). -/
def Obligations.TicksConserved : Prop :=
  ∀ (a b : Bool) (s0 s t : State) (ops : List Instr),
    exec (.reset a b) s0 = .next s → ops.all (fun i => !isReset i && (!isFinish i || isReadyFinish i)) = true →
    runOps ops s = .next t →
    (((t.tlmOut.drop s.tlmOut.length).map Record.ticks).sum + t.tick + if t.phase = .pFinish then t.tsmp else 0)
        % 2 ^ s0.cfg.tickW =
      (validDirs s0.cfg s.prev (samplesOf ops)).length % 2 ^ s0.cfg.tickW

/-- 42_reporter.md section 3 (R166, which the spec derives from R160 and R161): with TIME_SOURCE = ITER every record emitted
after a RESET lasts INTERVAL, modulo 2^TIME_W; at the standard configuration, 10000. -/
def Obligations.WindowsLastInterval : Prop :=
  ∀ (a b : Bool) (s0 s t : State) (ops : List Instr),
    1 ≤ s0.cfg.interval → s0.cfg.timeSource = .iter → exec (.reset a b) s0 = .next s → runOps ops s = .next t →
    ∀ r ∈ t.tlmOut.drop s0.tlmOut.length,
      r.dur = s0.cfg.interval % 2 ^ s0.cfg.timeW ∧ (s0.cfg = Config.standard → r.dur = 10000)

/-- R167: with TIME_SOURCE = EXTERNAL the duration is time_in less OBST, modulo 2^TIME_W, whatever time_in is, and the first
record after RESET measures from time 0. -/
def Obligations.ExternalDuration : Prop :=
  ∀ (o : Operand) (s : State), Running s → s.phase = .pFinish → s.cfg.timeSource = .external →
    ∃ t r, exec (.finish true o) s = .next t ∧ t.tlmOut = s.tlmOut ++ [r] ∧
      t.obst = o.toNat % 2 ^ s.cfg.timeW ∧
      r.dur < 2 ^ s.cfg.timeW ∧ (r.dur + s.obst) % 2 ^ s.cfg.timeW = o.toNat % 2 ^ s.cfg.timeW ∧
      (s.obst = 0 → r.dur = o.toNat % 2 ^ s.cfg.timeW)

/-- 42_reporter.md section 3 (R169, which the spec derives from R160 and R161): COUNT and FINISH have a step whenever PHASE
names them, and an iteration ends within three main-loop operations. -/
def Obligations.ReporterNeverBlocks : Prop :=
  (∀ s : State, Running s → s.phase = .pCount → ∃ t, exec .count s = .next t) ∧
  (∀ (tx : Bool) (o : Operand) (s : State), Running s → s.phase = .pFinish →
    ∃ t, exec (.finish tx o) s = .next t) ∧
  (∀ s s1 : State, exec .ramp s = .next s1 →
    ∃ s2, exec .count s1 = .next s2 ∧
      (s2.phase = .pRamp ∨
        (s2.phase = .pFinish ∧ ∀ tx o, ∃ s3, exec (.finish tx o) s2 = .next s3 ∧ s3.phase = .pRamp)))

/-! ### The order of operations -/

/-- 60_exceptions.md section 2, R205: the order of the checks of one step, from the configuration to the operation's own
effect; a mismatch is tested before the transition is classified. The clause on decoding errors covers, beside R73's three
refusals, the model's own scheduleEnd and strayOperand; the faulted states have the operation's words taken, and "no step" is
the fault noStep: the model's choices, log entries 4, 5 and 7. -/
def Obligations.OrderOfChecks : Prop :=
  ∀ s : State,
    (configLegal s.cfg = false → step s = .refused .badConfig) ∧
    (configLegal s.cfg = true → ∀ e, decode s.cfg.timeW s.sched = .error e → step s = .refused (decodeRefusal e)) ∧
    (configLegal s.cfg = true → ∀ i rest, decode s.cfg.timeW s.sched = .ok (i, rest) →
      (s.started = false → isReset i = false → step s = .refused .beforeReset) ∧
      (s.started = true → s.fault ≠ .none → step s = .fault (.noStep { s with sched := rest })) ∧
      (Running s → ∀ p, phaseOf i = some p → s.phase ≠ p → step s = .refused (.disabled i s.phase)) ∧
      (Running s → s.phase = .pRamp → i = .ramp → rampInputsOk s.tv s.ta = false →
        step s = .fault (.precond { s with sched := rest, fault := .precond })) ∧
      (Enabled i s → (i = .ramp → rampInputsOk s.tv s.ta = true) → ∃ t, step s = .next t)) ∧
    (∀ a b an bn : Bool, Running s → s.cfg.complementCheck = true → (an = a ∨ bn = b) →
      exec (.edge a b an bn) s = .next { s with err := (s.err + 1) % 2 ^ s.cfg.errW })

/-- R57 and R34: a main-loop operation that PHASE does not name is refused with RF_DISABLED; RAMP, COUNT and FINISH move
PHASE in program order, and nothing else but RESET moves it. -/
def Obligations.MainLoopInProgramOrder : Prop :=
  (∀ (i : Instr) (p : Phase) (s : State), phaseOf i = some p → Running s → s.phase ≠ p →
    exec i s = .refused (.disabled i s.phase)) ∧
  (∀ s t : State, exec .ramp s = .next t → s.phase = .pRamp ∧ t.phase = .pCount) ∧
  (∀ s t : State, exec .count s = .next t →
    s.phase = .pCount ∧ t.phase = if s.iter + 1 = s.cfg.interval then .pFinish else .pRamp) ∧
  (∀ (tx : Bool) (o : Operand) (s t : State), exec (.finish tx o) s = .next t →
    s.phase = .pFinish ∧ t.phase = .pRamp) ∧
  (∀ (i : Instr) (s t : State), phaseOf i = none → isReset i = false → exec i s = .next t → t.phase = s.phase)

/-- R58: host writes are enabled at every point after RESET, and a RAMP sees the values of the last SETV and SETA before it.
-/
def Obligations.HostWritesAnywhereLastOneCounts : Prop :=
  (∀ (v : F32) (s : State), Running s → (∃ t, exec (.setv v) s = .next t) ∧ (∃ t, exec (.seta v) s = .next t)) ∧
  (∀ (v : F32) (ops : List Instr) (s t : State), ops.all (fun i => !isReset i && !isSetv i) = true →
    runOps (.setv v :: ops) s = .next t → t.tv = v) ∧
  (∀ (v : F32) (ops : List Instr) (s t : State), ops.all (fun i => !isReset i && !isSeta i) = true →
    runOps (.seta v :: ops) s = .next t → t.ta = v)

/-- An operation has a next state exactly when it is enabled and, for RAMP, its inputs are well formed: every interleaving of
enabled operations is admitted, and no other (20_memory.md section 4). -/
def Obligations.StepsExactlyWhenEnabled : Prop :=
  ∀ (i : Instr) (s : State),
    (∃ t, exec i s = .next t) ↔ Enabled i s ∧ (i = .ramp → rampInputsOk s.tv s.ta = true)

/-- Under a weakly fair main loop reports never stop falling due: in an infinite run with no RESET, from a started state that
meets the invariant, a FINISH runs after every point (20_memory.md section 6, 42_reporter.md section 3). -/
def Obligations.FairRunsKeepReporting : Prop :=
  ∀ (ops : Nat → Instr) (st : Nat → State),
    InfiniteRun ops st → WeaklyFair ops → (∀ n, isReset (ops n) = false) → Inv (st 0) →
    ∀ n, ∃ m, n ≤ m ∧ isFinish (ops m) = true

/-! ### Who writes what -/

/-- R39, with the writer column of R21: each register is written by its writers alone; of the two that have two writers, EDGE
increments TICK and COUNT zeroes it, EDGE sets DCF and FINISH clears it; and no operation touches the configuration or the
schedule, leaves the block stopped or sets FAULT. This is the frame of every operation; RESET's is its whole next state
(ResetOperation). -/
def Obligations.EachRegisterHasItsWriters : Prop :=
  ∀ (i : Instr) (s t : State), exec i s = .next t →
    t.cfg = s.cfg ∧ t.sched = s.sched ∧ t.started = true ∧ t.fault = .none ∧
    (isFinish i = false → t.tlmOut = s.tlmOut) ∧
    (isReset i = false →
      (isEdge i = false → t.prev = s.prev ∧ t.dir = s.dir ∧ t.err = s.err) ∧
      (isSetv i = false → t.tv = s.tv) ∧
      (isSeta i = false → t.ta = s.ta) ∧
      (i ≠ .ramp → t.cv = s.cv) ∧
      (isCount i = false → t.tsmp = s.tsmp ∧ t.loopc = s.loopc) ∧
      (isCount i = false → isFinish i = false → t.iter = s.iter) ∧
      (isFinish i = false → t.obst = s.obst) ∧
      (agentOf i ≠ .mainLoop → t.phase = s.phase) ∧
      (isEdge i = false → isCount i = false → t.tick = s.tick) ∧
      (isEdge i = false → isFinish i = false → t.dcf = s.dcf) ∧
      (isEdge i = true → (t.tick = s.tick ∨ t.tick = (s.tick + 1) % 2 ^ s.cfg.tickW) ∧ (t.dcf = s.dcf ∨ t.dcf = true)) ∧
      (isCount i = true → t.tick = s.tick ∨ t.tick = 0) ∧
      (isFinish i = true → t.dcf = false))

/-- A known direction never becomes unknown again except through RESET; only a valid transition changes it, to its own
direction (10_state.md section 2). -/
def Obligations.KnownDirectionStaysKnown : Prop :=
  (∀ (i : Instr) (s t : State), isReset i = false → exec i s = .next t → t.dir ≠ s.dir →
    ∃ a b an bn, i = .edge a b an bn ∧ classDir (qtrans s.prev (phaseCode a b)) = some t.dir) ∧
  (∀ (ops : List Instr) (s t : State), ops.all (fun i => !isReset i) = true → s.dir ≠ .unknown →
    runOps ops s = .next t → t.dir ≠ .unknown)

/-- R24: EDGE sets DCF when it flips DIR between +1 and -1 and never clears it; only FINISH and RESET write 0 to it. -/
def Obligations.LatchHoldsUntilAcknowledged : Prop :=
  (∀ (a b an bn : Bool) (s t : State), exec (.edge a b an bn) s = .next t →
    (t.dcf = true ↔ s.dcf = true ∨ (s.dir = .cw ∧ t.dir = .ccw) ∨ (s.dir = .ccw ∧ t.dir = .cw))) ∧
  (∀ (i : Instr) (s t : State), exec i s = .next t → s.dcf = true → t.dcf = false →
    isFinish i = true ∨ isReset i = true) ∧
  (∀ (tx : Bool) (o : Operand) (s t : State), exec (.finish tx o) s = .next t → t.dcf = false)

/-- 10_state.md section 4 (R31, which the spec derives from R160 and R161): COUNT increments ITER and FINISH resets it; after
RESET it is at most INTERVAL - 1 whenever no report is due, and INTERVAL while one is. -/
def Obligations.IterStaysWithinTheWindow : Prop :=
  (∀ s t : State, exec .count s = .next t → t.iter = s.iter + 1) ∧
  (∀ (tx : Bool) (o : Operand) (s t : State), exec (.finish tx o) s = .next t → t.iter = 0) ∧
  (∀ (a b : Bool) (s0 s t : State) (ops : List Instr), 1 ≤ s0.cfg.interval → exec (.reset a b) s0 = .next s →
    runOps ops s = .next t →
    (t.phase = .pFinish → t.iter = s0.cfg.interval) ∧ (t.phase ≠ .pFinish → t.iter ≤ s0.cfg.interval - 1))

/-! ### Invariants of every step -/

/-- Every step keeps the invariant: a legal configuration and sound records; and, once started, no fault, counters below the
moduli of their widths, ITER as PHASE says, and no reversal latched while the direction is unknown (10_state.md sections 1,
2, 4 and 5). -/
def Obligations.StepKeepsInv : Prop :=
  ∀ s t : State, Inv s → step s = .next t → Inv t

/-- Every step keeps CV finite (41_ramp.md section 3). -/
def Obligations.StepKeepsVelocityFinite : Prop :=
  ∀ s t : State, CvFinite s → step s = .next t → CvFinite t

/-- Every step keeps the window clock, and with it that every record lasts one window (42_reporter.md section 3). -/
def Obligations.StepKeepsTheWindowClock : Prop :=
  ∀ s t : State, Inv s → WindowClock s → RecordsLastOneWindow s → step s = .next t →
    WindowClock t ∧ RecordsLastOneWindow t

/-- The reset state meets every invariant (10_state.md section 1). Its DT and its PREV are the model's choice (log entries 2
and 3). -/
def Obligations.ResetMeetsTheInvariants : Prop :=
  Inv State.reset ∧ CvFinite State.reset ∧ WindowClock State.reset ∧ RecordsLastOneWindow State.reset

/-! ### The arithmetic -/

/-- The sum of two finite numbers is the nearest binary32, the even one of two equally near; it is the infinity of the exact
sum's sign exactly from half a unit past the largest finite number on; and an exact zero is +0 unless both operands are
negative zeros (00_scope.md section 5; the infinity and zero results are those of IEEE 754, PRESUMED, log entry 14). Values
count units of 2^-149. -/
def Obligations.SumIsCorrectlyRounded : Prop :=
  ∀ a b : F32, f32IsFinite a = true → f32IsFinite b = true →
    ∀ v : Int, v = f32Value a + f32Value b →
      (f32IsFinite (f32Add a b) = true → ∀ c : F32, f32IsFinite c = true →
        |f32Value (f32Add a b) - v| ≤ |f32Value c - v| ∧
        (|f32Value (f32Add a b) - v| = |f32Value c - v| → f32Value c ≠ f32Value (f32Add a b) →
          f32Mag (f32Add a b) % 2 = 0)) ∧
      (f32IsFinite (f32Add a b) = false →
        f32Add a b = (if v < 0 then 0xFF800000#32 else 0x7F800000#32) ∧ (2 ^ 25 - 1) * 2 ^ 253 ≤ 2 * |v|) ∧
      ((2 ^ 25 - 1) * 2 ^ 253 ≤ 2 * |v| → f32Add a b = if v < 0 then 0xFF800000#32 else 0x7F800000#32) ∧
      (v = 0 → f32Add a b =
        if f32Sign a = true ∧ f32Sign b = true then 0x80000000#32 else 0x00000000#32)

/-- The product of two finite numbers is the nearest binary32, the even one of two equally near, its sign the product of the
signs, that of a zero included; it is an infinity exactly from half a unit past the largest finite number on (00_scope.md
section 5, 41_ramp.md section 1 corner case (3) of RAMP; the infinity and zero results are those of IEEE 754, PRESUMED, log
entry 14). The exact product counts units of 2^-298. -/
def Obligations.ProductIsCorrectlyRounded : Prop :=
  ∀ a b : F32, f32IsFinite a = true → f32IsFinite b = true →
    ∀ v : Int, v = f32Value a * f32Value b →
      f32Sign (f32Mul a b) = (f32Sign a != f32Sign b) ∧
      (f32IsFinite (f32Mul a b) = true → ∀ c : F32, f32IsFinite c = true →
        |f32Value (f32Mul a b) * 2 ^ 149 - v| ≤ |f32Value c * 2 ^ 149 - v| ∧
        (|f32Value (f32Mul a b) * 2 ^ 149 - v| = |f32Value c * 2 ^ 149 - v| → f32Value c ≠ f32Value (f32Mul a b) →
          f32Mag (f32Mul a b) % 2 = 0)) ∧
      (f32IsFinite (f32Mul a b) = false →
        f32Mag (f32Mul a b) = 0x7F800000 ∧ (2 ^ 25 - 1) * 2 ^ 253 * 2 ^ 149 ≤ 2 * |v|) ∧
      ((2 ^ 25 - 1) * 2 ^ 253 * 2 ^ 149 ≤ 2 * |v| →
        f32Mul a b = if f32Sign a = f32Sign b then 0x7F800000#32 else 0xFF800000#32)

/-- A difference is the sum with the sign bit of the subtrahend turned; the comparisons are those of the exact values, with
an infinity at either end of the order, and false on a NaN; the absolute value clears the sign (00_scope.md section 5; the
order of the infinities is IEEE 754's, PRESUMED, log entry 14). Where the difference is a NaN the spec gives no sign or
payload, and that they are those of the sum is the model's choice, log entry 8. -/
def Obligations.DifferenceAndComparisons : Prop :=
  (∀ a b : F32, f32Sub a b = f32Add a (b ^^^ 0x80000000#32) ∧
    (f32IsFinite b = true → f32Value (b ^^^ 0x80000000#32) = -f32Value b)) ∧
  (∀ a b : F32, f32IsFinite a = true → f32IsFinite b = true →
    (f32Le a b = true ↔ f32Value a ≤ f32Value b) ∧ (f32Gt a b = true ↔ f32Value b < f32Value a)) ∧
  (∀ a : F32, f32IsNaN a = false →
    f32Le a 0x7F800000#32 = true ∧ f32Le 0xFF800000#32 a = true ∧
    (f32Le 0x7F800000#32 a = true ↔ a = 0x7F800000#32) ∧ (f32Le a 0xFF800000#32 = true ↔ a = 0xFF800000#32) ∧
    (f32Gt 0x7F800000#32 a = true ↔ a ≠ 0x7F800000#32) ∧ (f32Gt a 0xFF800000#32 = true ↔ a ≠ 0xFF800000#32) ∧
    f32Gt a 0x7F800000#32 = false ∧ f32Gt 0xFF800000#32 a = false) ∧
  (∀ a b : F32, f32IsNaN a = true ∨ f32IsNaN b = true → f32Le a b = false ∧ f32Gt a b = false) ∧
  (∀ a : F32, f32Sign (f32Abs a) = false ∧ f32Mag (f32Abs a) = f32Mag a ∧
    (f32IsFinite a = true → f32Value (f32Abs a) = |f32Value a|)) ∧
  f32Abs 0xFF800000#32 = 0x7F800000#32

/-! ### The ports and the schedule -/

/-- R36: vel_cmd, dir_out and err_out show CV, the code of DIR, and ERR; tlm_valid is one strobe, with the record, in each
FINISH that emits one, and absent in every other operation. -/
def Obligations.OutputPorts : Prop :=
  (∀ s : State, velCmd s = s.cv ∧ dirOut s = dirCode s.dir ∧
    (s.err < 2 ^ s.cfg.errW → (errOut s).toNat = s.err)) ∧
  (∀ (i : Instr) (s t : State), exec i s = .next t →
    (isReadyFinish i = false → tlmStrobe s t = none) ∧
    (isReadyFinish i = true → ∃ r, tlmStrobe s t = some r ∧ t.tlmOut = s.tlmOut ++ [r] ∧
      r.ticks = s.tsmp ∧ r.dir = s.dir ∧ r.chg = s.dcf))

/-- The fields of tlm_rec stand at the places the record format gives them (30_encoding.md section 4). -/
def Obligations.RecordPacking : Prop :=
  ∀ (c : Config) (r : Record), r.ticks < 2 ^ c.tickW → r.dur < 2 ^ c.timeW →
    ((packRecord c r).extractLsb' 0 c.tickW).toNat = r.ticks ∧
    ((packRecord c r).extractLsb' c.tickW c.timeW).toNat = r.dur ∧
    (packRecord c r).extractLsb' (c.tickW + c.timeW) 2 = dirCode r.dir ∧
    (packRecord c r).getLsbD (c.tickW + c.timeW + 2) = r.chg

/-- R86: STEP is an EDGE with consistent complements; ITER is RAMP, COUNT and, exactly when that COUNT makes a report due,
FINISH; RUN is n consecutive ITERs; the operands left out are 1 and 0. Run on a block at P_RAMP whose inputs are well formed,
the expansion of RUN completes and ends at P_RAMP with the count the expansion reckoned. -/
def Obligations.PseudoOperations : Prop :=
  (∀ a b : Bool, expandStep a b = .edge a b (!a) (!b)) ∧
  encode (expandStep false true) = [.header 0x2009#16] ∧
  (∀ (interval iter : Nat) (tx : Bool) (t : Operand),
    expandIter interval iter tx t =
      if iter + 1 = interval then [.ramp, .count, .finish tx t] else [.ramp, .count]) ∧
  (∀ (interval iter n : Nat) (tx : Bool) (t : Operand),
    (expandRun interval tx t 0 iter).1 = [] ∧
    (expandRun interval tx t (n + 1) iter).1 =
      expandIter interval iter tx t ++
        (expandRun interval tx t n (if iter + 1 = interval then 0 else iter + 1)).1) ∧
  (∀ (interval iter n : Nat) (a b tx : Bool) (t : Operand) (l : SchedLine) (ls : List SchedLine),
    expandLine interval iter (.step a b) = ([expandStep a b], iter) ∧
    expandLine interval iter (.iter tx t) =
      (expandIter interval iter tx t, if iter + 1 = interval then 0 else iter + 1) ∧
    expandLine interval iter (.run n tx t) = expandRun interval tx t n iter ∧
    expand interval iter (l :: ls) =
      (expandLine interval iter l).1 ++ expand interval (expandLine interval iter l).2 ls) ∧
  (∀ interval iter : Nat, expandLine interval iter .iter = expandLine interval iter (.iter true 0#32) ∧
    ∀ n, expandLine interval iter (.run n) = expandLine interval iter (.run n true 0#32)) ∧
  (∀ (n : Nat) (tx : Bool) (o : Operand) (s : State), Running s → s.phase = .pRamp → rampInputsOk s.tv s.ta = true →
    ∃ t, runOps (expandRun s.cfg.interval tx o n s.iter).1 s = .next t ∧ t.phase = .pRamp ∧
      t.iter = (expandRun s.cfg.interval tx o n s.iter).2)

/-- Stepping the machine through the words of a list of operations is running the operations: the word format adds nothing to
what the operations do (30_encoding.md section 1, 20_memory.md section 4). That the schedule is a field of the state, whose
words are taken before the operation runs, is the model's choice, log entry 4. -/
def Obligations.ScheduleRunsItsOperations : Prop :=
  ∀ (ops : List Instr) (rest : List SchedWord) (s t : State),
    configLegal s.cfg = true → ops.all (fun i => i.wellFormed s.cfg.timeW) = true → runOps ops s = .next t →
    Host.Core.run Sys2Proof.core ops.length { s with sched := encodeAll ops ++ rest } = .next { t with sched := rest }
end

