-- ==== Sys2Proof/Laws/F32.lean ====
section
/-! SUPPORT. What the binary32 primitives do, once each: fields and magnitudes, exact units and their order, the rounding
(monotone, exact on representable values, nearest within half a unit), and the order on patterns. -/

namespace Sys2Proof.Laws

open Sys2Proof.Machine

/-! ### Fields -/

theorem f32Mag_lt (x : F32) : f32Mag x < 2 ^ 31 := (x.extractLsb' 0 31).isLt

theorem f32Mag_eq_mod (x : F32) : f32Mag x = x.toNat % 2 ^ 31 := by
  simp [f32Mag, BitVec.extractLsb'_toNat]

theorem f32Exp_eq (x : F32) : f32Exp x = f32Mag x / 2 ^ 23 := by
  simp only [f32Exp, f32Mag_eq_mod, BitVec.extractLsb'_toNat, Nat.shiftRight_eq_div_pow]
  omega

theorem f32Frac_eq (x : F32) : f32Frac x = f32Mag x % 2 ^ 23 := by
  simp only [f32Frac, f32Mag_eq_mod, BitVec.extractLsb'_toNat, Nat.shiftRight_eq_div_pow]
  omega

theorem f32Sign_eq (x : F32) : f32Sign x = decide (2 ^ 31 ≤ x.toNat) := by
  have h : x.getLsbD 31 = x.msb := (BitVec.msb_eq_getLsbD_last x).symm
  rw [f32Sign, h, BitVec.msb_eq_decide]

theorem f32IsFinite_iff (x : F32) : f32IsFinite x = true ↔ f32Mag x < infMag := by
  have := f32Mag_lt x
  simp only [f32IsFinite, f32Exp_eq, bne_iff_ne, ne_eq, infMag]
  omega

theorem not_nan_of_finite {x : F32} (h : f32IsFinite x = true) : f32IsNaN x = false := by
  simp [f32IsNaN, f32IsFinite] at *
  simp [h]

theorem not_inf_of_finite {x : F32} (h : f32IsFinite x = true) : f32IsInf x = false := by
  simp [f32IsInf, f32IsFinite] at *
  simp [h]

/-- A pattern is its sign and its magnitude. -/
theorem f32_ext {x y : F32} (hs : f32Sign x = f32Sign y) (hm : f32Mag x = f32Mag y) : x = y := by
  apply BitVec.eq_of_toNat_eq
  have hx := x.isLt
  have hy := y.isLt
  rw [f32Mag_eq_mod, f32Mag_eq_mod] at hm
  rw [f32Sign_eq, f32Sign_eq, decide_eq_decide] at hs
  omega

theorem f32Pack_toNat (s : Bool) (m : Nat) : (f32Pack s m).toNat = 2 ^ 31 * s.toNat + m % 2 ^ 31 := by
  have h : m % 2 ^ 31 < 2 ^ 31 := Nat.mod_lt _ (by norm_num)
  rw [f32Pack, BitVec.toNat_append, BitVec.toNat_ofBool, BitVec.toNat_ofNat, Nat.shiftLeft_eq, Nat.mul_comm,
    ← Nat.two_pow_add_eq_or_of_lt h]

@[simp] theorem f32Sign_pack (s : Bool) (m : Nat) : f32Sign (f32Pack s m) = s := by
  have h : m % 2 ^ 31 < 2 ^ 31 := Nat.mod_lt _ (by norm_num)
  rw [f32Sign_eq, f32Pack_toNat]
  cases s <;> simp
  omega

@[simp] theorem f32Mag_pack (s : Bool) (m : Nat) : f32Mag (f32Pack s m) = m % 2 ^ 31 := by
  rw [f32Mag_eq_mod, f32Pack_toNat, Nat.mul_add_mod, Nat.mod_mod]

/-! ### Exact magnitudes -/

/-- The exact magnitude, in units of 2^-149, of bits 30:0. -/
def unitsOfMag (m : Nat) : Nat :=
  if m / 2 ^ 23 = 0 then m % 2 ^ 23 else (2 ^ 23 + m % 2 ^ 23) * 2 ^ (m / 2 ^ 23 - 1)

theorem f32Units_eq (x : F32) : f32Units x = unitsOfMag (f32Mag x) := by
  simp only [f32Units, unitsOfMag, f32Exp_eq, f32Frac_eq]

theorem unitsOfMag_lt_succ (m : Nat) : unitsOfMag m < unitsOfMag (m + 1) := by
  unfold unitsOfMag
  rcases Nat.lt_or_ge (m % 2 ^ 23 + 1) (2 ^ 23) with h | h
  · have hd : (m + 1) / 2 ^ 23 = m / 2 ^ 23 := by omega
    have hm : (m + 1) % 2 ^ 23 = m % 2 ^ 23 + 1 := by omega
    rw [hd, hm]
    split
    · omega
    · exact (Nat.mul_lt_mul_right (Nat.two_pow_pos _)).2 (by omega)
  · have hd : (m + 1) / 2 ^ 23 = m / 2 ^ 23 + 1 := by omega
    have hm : (m + 1) % 2 ^ 23 = 0 := by omega
    have hr : m % 2 ^ 23 = 2 ^ 23 - 1 := by omega
    rw [hd, hm, hr]
    split
    · rename_i h0; rw [h0]; norm_num
    · rename_i h0
      obtain ⟨e, he⟩ : ∃ e, m / 2 ^ 23 = e + 1 := ⟨m / 2 ^ 23 - 1, by omega⟩
      rw [he]
      simp only [Nat.add_sub_cancel, Nat.succ_ne_zero, if_false, Nat.pow_succ]
      have := Nat.two_pow_pos e
      nlinarith

theorem unitsOfMag_strictMono : StrictMono unitsOfMag := strictMono_nat_of_lt_succ unitsOfMag_lt_succ

theorem f32Units_le_iff (x y : F32) : f32Units x ≤ f32Units y ↔ f32Mag x ≤ f32Mag y := by
  rw [f32Units_eq, f32Units_eq, unitsOfMag_strictMono.le_iff_le]

/-! ### Rounding -/

theorem roundShift_zero (n : Nat) : roundShift n 0 = n := by
  simp [roundShift, Nat.mod_one]

theorem roundShift_mul (n sh : Nat) : roundShift (n * 2 ^ sh) sh = n := by
  have := Nat.two_pow_pos sh
  simp [roundShift, Nat.mul_div_cancel _ this, this.ne]

theorem roundShift_mono {n n' : Nat} (h : n ≤ n') (sh : Nat) : roundShift n sh ≤ roundShift n' sh := by
  have hq : n / 2 ^ sh ≤ n' / 2 ^ sh := Nat.div_le_div_right h
  have e := Nat.div_add_mod n (2 ^ sh)
  have e' := Nat.div_add_mod n' (2 ^ sh)
  rcases Nat.lt_or_ge (n / 2 ^ sh) (n' / 2 ^ sh) with h1 | h1
  · simp only [roundShift]; split <;> split <;> omega
  · have hqq : n / 2 ^ sh = n' / 2 ^ sh := by omega
    have hr : n % 2 ^ sh ≤ n' % 2 ^ sh := by rw [hqq] at e; omega
    simp only [roundShift, hqq]; split <;> split <;> omega

/-- The rounded quotient is within half a unit. -/
theorem roundShift_near (n sh : Nat) :
    2 * n ≤ 2 * (roundShift n sh * 2 ^ sh) + 2 ^ sh ∧ 2 * (roundShift n sh * 2 ^ sh) ≤ 2 * n + 2 ^ sh := by
  have e := Nat.div_add_mod n (2 ^ sh)
  have hr := Nat.mod_lt n (Nat.two_pow_pos sh)
  rw [Nat.mul_comm] at e
  simp only [roundShift]
  split
  · rw [Nat.add_mul, Nat.one_mul]; omega
  · omega

/-- A quotient half way between two integers rounds to the even one. -/
theorem roundShift_tie (n sh : Nat) (h : 2 * (n % 2 ^ sh) = 2 ^ sh) : roundShift n sh % 2 = 0 := by
  simp only [roundShift, h, lt_irrefl, false_or, true_and]
  split <;> omega

theorem le_roundShift {n q sh : Nat} (h : q * 2 ^ sh ≤ n) : q ≤ roundShift n sh := by
  calc q = roundShift (q * 2 ^ sh) sh := (roundShift_mul q sh).symm
    _ ≤ _ := roundShift_mono h sh

theorem roundShift_le {n q sh : Nat} (h : n ≤ q * 2 ^ sh) : roundShift n sh ≤ q := by
  calc _ ≤ roundShift (q * 2 ^ sh) sh := roundShift_mono h sh
    _ = q := roundShift_mul q sh

theorem lt_two_pow_roundDrop (n k : Nat) : n < 2 ^ (roundDrop n k + 24) :=
  (Nat.lt_log2_self (n := n)).trans_le (Nat.pow_le_pow_right (by norm_num) (by simp only [roundDrop]; omega))

theorem two_pow_roundDrop_le {n k : Nat} (h : k < roundDrop n k) : 2 ^ (roundDrop n k + 23) ≤ n := by
  have hn : n ≠ 0 := by rintro rfl; simp [roundDrop] at h
  have : roundDrop n k + 23 = n.log2 := by simp only [roundDrop] at *; omega
  rw [this]; exact Nat.log2_self_le hn

theorem log2_mono {n n' : Nat} (h : n ≤ n') : n.log2 ≤ n'.log2 := by
  rcases Nat.eq_zero_or_pos n with rfl | hn
  · simp
  · exact (Nat.le_log2 (by omega)).2 ((Nat.log2_self_le (by omega)).trans h)

theorem roundDrop_mono {n n' : Nat} (h : n ≤ n') (k : Nat) : roundDrop n k ≤ roundDrop n' k := by
  have := log2_mono h
  simp only [roundDrop]; omega

theorem le_roundDrop (n k : Nat) : k ≤ roundDrop n k := Nat.le_max_left _ _

/-- Rounding is monotone (93_implementation_defined.md G5). -/
theorem roundMag_mono {n n' : Nat} (h : n ≤ n') (k : Nat) : roundMag n k ≤ roundMag n' k := by
  have hD := roundDrop_mono h k
  have hk := le_roundDrop n k
  suffices hs : (roundDrop n k - k) * 2 ^ 23 + roundShift n (roundDrop n k)
      ≤ (roundDrop n' k - k) * 2 ^ 23 + roundShift n' (roundDrop n' k) from
    min_le_min_right _ hs
  rcases Nat.lt_or_ge (roundDrop n k) (roundDrop n' k) with h1 | h1
  · have hup : roundShift n (roundDrop n k) ≤ 2 ^ 24 := by
      have h2 := lt_two_pow_roundDrop n k
      rw [Nat.pow_add, Nat.mul_comm] at h2
      exact roundShift_le h2.le
    have hlo : 2 ^ 23 ≤ roundShift n' (roundDrop n' k) := by
      have h2 := two_pow_roundDrop_le (show k < roundDrop n' k by omega)
      rw [Nat.pow_add, Nat.mul_comm] at h2
      exact le_roundShift h2
    omega
  · have : roundDrop n k = roundDrop n' k := by omega
    rw [this]
    have := roundShift_mono h (roundDrop n' k)
    omega

theorem roundMag_le_infMag (n k : Nat) : roundMag n k ≤ infMag := Nat.min_le_right _ _

theorem roundMag_lt (n k : Nat) : roundMag n k < 2 ^ 31 :=
  (roundMag_le_infMag n k).trans_lt (by norm_num [infMag])

@[simp] theorem roundMag_mod (n k : Nat) : roundMag n k % 2147483648 = roundMag n k :=
  Nat.mod_eq_of_lt (roundMag_lt n k)

@[simp] theorem roundMag_zero (k : Nat) : roundMag 0 k = 0 := by
  simp [roundMag, roundDrop, roundShift, infMag]

/-- Rounding is exact on what binary32 can hold. -/
theorem roundMag_unitsOfMag {m : Nat} (h : m ≤ infMag) : roundMag (unitsOfMag m) 0 = m := by
  have key : (roundDrop (unitsOfMag m) 0 - 0) * 2 ^ 23 + roundShift (unitsOfMag m) (roundDrop (unitsOfMag m) 0) = m := by
    unfold unitsOfMag
    split
    · rename_i h0
      have hm : m % 2 ^ 23 = m := by omega
      have hd : roundDrop m 0 = 0 := by
        rcases Nat.eq_zero_or_pos m with rfl | hp
        · simp [roundDrop]
        · have : m.log2 < 23 := (Nat.log2_lt (by omega)).2 (by omega)
          simp only [roundDrop]; omega
      rw [hm, hd, roundShift_zero]; omega
    · rename_i h0
      obtain ⟨e, he⟩ : ∃ e, m / 2 ^ 23 = e + 1 := ⟨m / 2 ^ 23 - 1, by omega⟩
      rw [he]
      simp only [Nat.add_sub_cancel]
      have hp := Nat.two_pow_pos e
      have hlog : ((2 ^ 23 + m % 2 ^ 23) * 2 ^ e).log2 = 23 + e := by
        rw [Nat.log2_eq_iff (by positivity)]
        constructor
        · rw [Nat.pow_add]; exact Nat.mul_le_mul_right _ (by omega)
        · rw [show 23 + e + 1 = 24 + e by omega, Nat.pow_add]
          exact (Nat.mul_lt_mul_right hp).2 (by omega)
      have hd : roundDrop ((2 ^ 23 + m % 2 ^ 23) * 2 ^ e) 0 = e := by
        simp only [roundDrop, hlog]; omega
      rw [hd, roundShift_mul]
      omega
  simp only [roundMag, key]; omega

/-! ### Order on patterns -/

theorem f32Units_pack {m : Nat} (h : m ≤ infMag) (s : Bool) : f32Units (f32Pack s m) = unitsOfMag m := by
  rw [f32Units_eq, f32Mag_pack, Nat.mod_eq_of_lt (h.trans_lt (by norm_num [infMag]))]

theorem unitsOfMag_eq_zero {m : Nat} : unitsOfMag m = 0 ↔ m = 0 := by
  constructor
  · intro h
    by_contra hm
    have := unitsOfMag_strictMono (Nat.pos_of_ne_zero hm)
    omega
  · rintro rfl; rfl

/-- The order of patterns is the order of exact values. -/
theorem f32Key_le_iff (a b : F32) : f32Key a ≤ f32Key b ↔ f32Value a ≤ f32Value b := by
  have h1 := f32Units_le_iff a b
  have h2 := f32Units_le_iff b a
  have ha : f32Units a = 0 ↔ f32Mag a = 0 := by rw [f32Units_eq, unitsOfMag_eq_zero]
  have hb : f32Units b = 0 ↔ f32Mag b = 0 := by rw [f32Units_eq, unitsOfMag_eq_zero]
  simp only [f32Key, f32Value]
  split <;> split <;> omega

theorem f32Key_eq_iff (a b : F32) : f32Key a = f32Key b ↔ f32Value a = f32Value b := by
  have h1 := f32Key_le_iff a b
  have h2 := f32Key_le_iff b a
  omega

theorem f32Le_iff {a b : F32} (ha : f32IsNaN a = false) (hb : f32IsNaN b = false) :
    f32Le a b = true ↔ f32Key a ≤ f32Key b := by
  simp [f32Le, ha, hb]

theorem f32Gt_iff {a b : F32} (ha : f32IsNaN a = false) (hb : f32IsNaN b = false) :
    f32Gt a b = true ↔ f32Key b < f32Key a := by
  simp [f32Gt, ha, hb]

/-- No magnitude of a number is past that of an infinity. -/
theorem f32Mag_le_of_not_nan {a : F32} (h : f32IsNaN a = false) : f32Mag a ≤ infMag := by
  have := f32Mag_lt a
  simp only [f32IsNaN, f32Exp_eq, f32Frac_eq, Bool.and_eq_false_iff, beq_eq_false_iff_ne, bne_eq_false_iff_eq, infMag] at *
  omega

/-- The infinities stand at the two ends of the order. -/
theorem f32Key_infinity :
    f32Key 0x7F800000#32 = infMag ∧ f32Key 0xFF800000#32 = -(infMag : Int) ∧
    f32IsNaN 0x7F800000#32 = false ∧ f32IsNaN 0xFF800000#32 = false := by decide

/-- Every number stands between the infinities, and at an end it is that infinity. -/
theorem f32Key_bounds {a : F32} (h : f32IsNaN a = false) :
    -(infMag : Int) ≤ f32Key a ∧ f32Key a ≤ infMag ∧
    (f32Key a = infMag ↔ a = 0x7F800000#32) ∧ (f32Key a = -(infMag : Int) ↔ a = 0xFF800000#32) := by
  have hm := f32Mag_le_of_not_nan h
  have p : f32Sign 0x7F800000#32 = false ∧ f32Mag 0x7F800000#32 = infMag := by decide
  have n : f32Sign 0xFF800000#32 = true ∧ f32Mag 0xFF800000#32 = infMag := by decide
  have hpos : 0 < infMag := by decide
  refine ⟨?_, ?_, ⟨fun e => f32_ext ?_ ?_, fun e => e ▸ f32Key_infinity.1⟩,
    fun e => f32_ext ?_ ?_, fun e => e ▸ f32Key_infinity.2.1⟩ <;>
  · simp only [f32Key] at *
    cases hs : f32Sign a <;> simp only [hs, p, n, if_true, if_false, Bool.false_eq_true] at * <;> omega

/-- The key of a rounded value: its sign on its rounded magnitude. -/
theorem f32Key_roundValue (z : Bool) (v : Int) :
    f32Key (roundValue z v) = if v < 0 then -(roundMag v.natAbs 0 : Int) else (roundMag v.natAbs 0 : Int) := by
  unfold roundValue
  split
  · rename_i h; subst h; cases z <;> simp [f32Key]
  · by_cases hv : v < 0 <;> simp [f32Key, hv]

theorem f32Mag_roundValue (z : Bool) (v : Int) : f32Mag (roundValue z v) = roundMag v.natAbs 0 := by
  unfold roundValue
  split
  · rename_i h; subst h; simp
  · simp

/-- A rounded value is no NaN. -/
theorem roundValue_not_nan (z : Bool) (v : Int) : f32IsNaN (roundValue z v) = false := by
  have h := roundMag_le_infMag v.natAbs 0
  simp only [f32IsNaN, f32Exp_eq, f32Frac_eq, f32Mag_roundValue, infMag] at *
  simp only [Bool.and_eq_false_iff, beq_eq_false_iff_ne, bne_eq_false_iff_eq]
  omega

/-- Rounding keeps order, whatever sign a zero takes. -/
theorem f32Key_roundValue_mono (z z' : Bool) {v v' : Int} (h : v ≤ v') :
    f32Key (roundValue z v) ≤ f32Key (roundValue z' v') := by
  rw [f32Key_roundValue, f32Key_roundValue]
  split <;> split
  · have := roundMag_mono (show v'.natAbs ≤ v.natAbs by omega) 0; omega
  · omega
  · omega
  · have := roundMag_mono (show v.natAbs ≤ v'.natAbs by omega) 0; omega

/-- Rounding the exact value of a finite number gives that number. -/
theorem f32Key_roundValue_value (z : Bool) {a : F32} (h : f32IsFinite a = true) :
    f32Key (roundValue z (f32Value a)) = f32Key a := by
  have hm := (f32IsFinite_iff a).1 h
  have hr : roundMag (f32Units a) 0 = f32Mag a := by rw [f32Units_eq, roundMag_unitsOfMag (by omega)]
  rw [f32Key_roundValue]
  have hz : f32Units a = 0 ↔ f32Mag a = 0 := by rw [f32Units_eq, unitsOfMag_eq_zero]
  unfold f32Value f32Key
  split <;> rename_i hs
  · have : (-(f32Units a : Int)).natAbs = f32Units a := by omega
    rw [this, hr]
    split <;> omega
  · have : ((f32Units a : Int)).natAbs = f32Units a := by omega
    rw [this, hr]
    split <;> omega

/-! ### The operations on finite numbers -/

theorem f32Add_finite {a b : F32} (ha : f32IsFinite a = true) (hb : f32IsFinite b = true) :
    f32Add a b = roundValue (f32Sign a && f32Sign b) (f32Value a + f32Value b) := by
  simp [f32Add, not_nan_of_finite ha, not_nan_of_finite hb, not_inf_of_finite ha, not_inf_of_finite hb]

@[simp] theorem f32Sign_neg (x : F32) : f32Sign (f32Neg x) = !f32Sign x := by
  simp [f32Sign, f32Neg]

@[simp] theorem f32Mag_neg (x : F32) : f32Mag (f32Neg x) = f32Mag x := by
  unfold f32Mag f32Neg
  congr 1
  apply BitVec.eq_of_getLsbD_eq
  intro i hi
  have h : (0x80000000#32).getLsbD i = false := by
    interval_cases i <;> rfl
  simp [hi, h]

theorem f32IsFinite_neg (x : F32) : f32IsFinite (f32Neg x) = f32IsFinite x := by
  rw [Bool.eq_iff_iff, f32IsFinite_iff, f32IsFinite_iff, f32Mag_neg]

theorem f32Value_neg (x : F32) : f32Value (f32Neg x) = -f32Value x := by
  simp only [f32Value, f32Units_eq, f32Sign_neg, f32Mag_neg]
  cases f32Sign x <;> simp

theorem f32Sub_finite {a b : F32} (ha : f32IsFinite a = true) (hb : f32IsFinite b = true) :
    f32Sub a b = roundValue (f32Sign a && !f32Sign b) (f32Value a - f32Value b) := by
  rw [f32Sub, f32Add_finite ha (by rw [f32IsFinite_neg, hb]), f32Sign_neg, f32Value_neg, Int.sub_eq_add_neg]

@[simp] theorem f32Sign_abs (x : F32) : f32Sign (f32Abs x) = false := by
  simp [f32Sign, f32Abs]

@[simp] theorem f32Mag_abs (x : F32) : f32Mag (f32Abs x) = f32Mag x := by
  unfold f32Mag f32Abs
  congr 1
  apply BitVec.eq_of_getLsbD_eq
  intro i hi
  have h : (0x7FFFFFFF#32).getLsbD i = true := by
    interval_cases i <;> rfl
  simp [hi, h]

/-- The magnitude's key. -/
@[simp] theorem f32Key_abs (x : F32) : f32Key (f32Abs x) = f32Mag x := by
  simp [f32Key]

theorem f32IsNaN_abs (x : F32) : f32IsNaN (f32Abs x) = f32IsNaN x := by
  simp [f32IsNaN, f32Exp_eq, f32Frac_eq]

theorem f32Mul_finite {a b : F32} (ha : f32IsFinite a = true) (hb : f32IsFinite b = true) :
    f32Mul a b = f32Pack (f32Sign a != f32Sign b) (roundMag (f32Units a * f32Units b) 149) := by
  simp [f32Mul, not_nan_of_finite ha, not_nan_of_finite hb, not_inf_of_finite ha, not_inf_of_finite hb]

/-- A product of finite numbers is no NaN. -/
theorem f32Mul_not_nan {a b : F32} (ha : f32IsFinite a = true) (hb : f32IsFinite b = true) :
    f32IsNaN (f32Mul a b) = false := by
  have h := roundMag_le_infMag (f32Units a * f32Units b) 149
  rw [f32Mul_finite ha hb]
  simp only [f32IsNaN, f32Exp_eq, f32Frac_eq, f32Mag_pack, infMag, Bool.and_eq_false_iff, beq_eq_false_iff_ne,
    bne_eq_false_iff_eq] at *
  omega

end Sys2Proof.Laws
end

