-- ==== Sys2Proof/Laws/State.lean ====
section
/-! SUPPORT. What each shared update of the state leaves in each register, one lemma each, for simp. -/

namespace Sys2Proof.Laws

open Sys2Proof.Machine

/-! ### Taking the words of an operation -/

@[simp] theorem advance_cfg (rest : List SchedWord) (s : State) : (advance rest s).cfg = s.cfg := rfl
@[simp] theorem advance_prev (rest : List SchedWord) (s : State) : (advance rest s).prev = s.prev := rfl
@[simp] theorem advance_dir (rest : List SchedWord) (s : State) : (advance rest s).dir = s.dir := rfl
@[simp] theorem advance_dcf (rest : List SchedWord) (s : State) : (advance rest s).dcf = s.dcf := rfl
@[simp] theorem advance_tick (rest : List SchedWord) (s : State) : (advance rest s).tick = s.tick := rfl
@[simp] theorem advance_err (rest : List SchedWord) (s : State) : (advance rest s).err = s.err := rfl
@[simp] theorem advance_tsmp (rest : List SchedWord) (s : State) : (advance rest s).tsmp = s.tsmp := rfl
@[simp] theorem advance_tv (rest : List SchedWord) (s : State) : (advance rest s).tv = s.tv := rfl
@[simp] theorem advance_ta (rest : List SchedWord) (s : State) : (advance rest s).ta = s.ta := rfl
@[simp] theorem advance_cv (rest : List SchedWord) (s : State) : (advance rest s).cv = s.cv := rfl
@[simp] theorem advance_iter (rest : List SchedWord) (s : State) : (advance rest s).iter = s.iter := rfl
@[simp] theorem advance_loopc (rest : List SchedWord) (s : State) : (advance rest s).loopc = s.loopc := rfl
@[simp] theorem advance_obst (rest : List SchedWord) (s : State) : (advance rest s).obst = s.obst := rfl
@[simp] theorem advance_phase (rest : List SchedWord) (s : State) : (advance rest s).phase = s.phase := rfl
@[simp] theorem advance_fault (rest : List SchedWord) (s : State) : (advance rest s).fault = s.fault := rfl
@[simp] theorem advance_started (rest : List SchedWord) (s : State) : (advance rest s).started = s.started := rfl
@[simp] theorem advance_tlmOut (rest : List SchedWord) (s : State) : (advance rest s).tlmOut = s.tlmOut := rfl
@[simp] theorem advance_sched (rest : List SchedWord) (s : State) : (advance rest s).sched = rest := rfl

/-! ### RESET -/

@[simp] theorem loadReset_cfg (a b : Bool) (s : State) : (loadReset a b s).cfg = s.cfg := rfl
@[simp] theorem loadReset_prev (a b : Bool) (s : State) : (loadReset a b s).prev = phaseCode a b := rfl
@[simp] theorem loadReset_dir (a b : Bool) (s : State) : (loadReset a b s).dir = .unknown := rfl
@[simp] theorem loadReset_dcf (a b : Bool) (s : State) : (loadReset a b s).dcf = false := rfl
@[simp] theorem loadReset_tick (a b : Bool) (s : State) : (loadReset a b s).tick = 0 := rfl
@[simp] theorem loadReset_err (a b : Bool) (s : State) : (loadReset a b s).err = 0 := rfl
@[simp] theorem loadReset_tsmp (a b : Bool) (s : State) : (loadReset a b s).tsmp = 0 := rfl
@[simp] theorem loadReset_tv (a b : Bool) (s : State) : (loadReset a b s).tv = 0#32 := rfl
@[simp] theorem loadReset_ta (a b : Bool) (s : State) : (loadReset a b s).ta = 0#32 := rfl
@[simp] theorem loadReset_cv (a b : Bool) (s : State) : (loadReset a b s).cv = 0#32 := rfl
@[simp] theorem loadReset_iter (a b : Bool) (s : State) : (loadReset a b s).iter = 0 := rfl
@[simp] theorem loadReset_loopc (a b : Bool) (s : State) : (loadReset a b s).loopc = 0 := rfl
@[simp] theorem loadReset_obst (a b : Bool) (s : State) : (loadReset a b s).obst = 0 := rfl
@[simp] theorem loadReset_phase (a b : Bool) (s : State) : (loadReset a b s).phase = .pRamp := rfl
@[simp] theorem loadReset_fault (a b : Bool) (s : State) : (loadReset a b s).fault = .none := rfl
@[simp] theorem loadReset_started (a b : Bool) (s : State) : (loadReset a b s).started = true := rfl
@[simp] theorem loadReset_tlmOut (a b : Bool) (s : State) : (loadReset a b s).tlmOut = s.tlmOut := rfl
@[simp] theorem loadReset_sched (a b : Bool) (s : State) : (loadReset a b s).sched = s.sched := rfl

/-! ### The error count -/

@[simp] theorem bumpErr_cfg (s : State) : (bumpErr s).cfg = s.cfg := rfl
@[simp] theorem bumpErr_prev (s : State) : (bumpErr s).prev = s.prev := rfl
@[simp] theorem bumpErr_dir (s : State) : (bumpErr s).dir = s.dir := rfl
@[simp] theorem bumpErr_dcf (s : State) : (bumpErr s).dcf = s.dcf := rfl
@[simp] theorem bumpErr_tick (s : State) : (bumpErr s).tick = s.tick := rfl
@[simp] theorem bumpErr_err (s : State) : (bumpErr s).err = wrap s.cfg.errW (s.err + 1) := rfl
@[simp] theorem bumpErr_tsmp (s : State) : (bumpErr s).tsmp = s.tsmp := rfl
@[simp] theorem bumpErr_tv (s : State) : (bumpErr s).tv = s.tv := rfl
@[simp] theorem bumpErr_ta (s : State) : (bumpErr s).ta = s.ta := rfl
@[simp] theorem bumpErr_cv (s : State) : (bumpErr s).cv = s.cv := rfl
@[simp] theorem bumpErr_iter (s : State) : (bumpErr s).iter = s.iter := rfl
@[simp] theorem bumpErr_loopc (s : State) : (bumpErr s).loopc = s.loopc := rfl
@[simp] theorem bumpErr_obst (s : State) : (bumpErr s).obst = s.obst := rfl
@[simp] theorem bumpErr_phase (s : State) : (bumpErr s).phase = s.phase := rfl
@[simp] theorem bumpErr_fault (s : State) : (bumpErr s).fault = s.fault := rfl
@[simp] theorem bumpErr_started (s : State) : (bumpErr s).started = s.started := rfl
@[simp] theorem bumpErr_tlmOut (s : State) : (bumpErr s).tlmOut = s.tlmOut := rfl
@[simp] theorem bumpErr_sched (s : State) : (bumpErr s).sched = s.sched := rfl

/-! ### A valid transition -/

@[simp] theorem validStep_cfg (c : BitVec 2) (d : Direction) (s : State) : (validStep c d s).cfg = s.cfg := rfl
@[simp] theorem validStep_prev (c : BitVec 2) (d : Direction) (s : State) : (validStep c d s).prev = c := rfl
@[simp] theorem validStep_dir (c : BitVec 2) (d : Direction) (s : State) : (validStep c d s).dir = dirAfter s.dir d := rfl
@[simp] theorem validStep_dcf (c : BitVec 2) (d : Direction) (s : State) : (validStep c d s).dcf = dcfAfter s.dir d s.dcf := rfl
@[simp] theorem validStep_tick (c : BitVec 2) (d : Direction) (s : State) : (validStep c d s).tick = wrap s.cfg.tickW (s.tick + 1) := rfl
@[simp] theorem validStep_err (c : BitVec 2) (d : Direction) (s : State) : (validStep c d s).err = s.err := rfl
@[simp] theorem validStep_tsmp (c : BitVec 2) (d : Direction) (s : State) : (validStep c d s).tsmp = s.tsmp := rfl
@[simp] theorem validStep_tv (c : BitVec 2) (d : Direction) (s : State) : (validStep c d s).tv = s.tv := rfl
@[simp] theorem validStep_ta (c : BitVec 2) (d : Direction) (s : State) : (validStep c d s).ta = s.ta := rfl
@[simp] theorem validStep_cv (c : BitVec 2) (d : Direction) (s : State) : (validStep c d s).cv = s.cv := rfl
@[simp] theorem validStep_iter (c : BitVec 2) (d : Direction) (s : State) : (validStep c d s).iter = s.iter := rfl
@[simp] theorem validStep_loopc (c : BitVec 2) (d : Direction) (s : State) : (validStep c d s).loopc = s.loopc := rfl
@[simp] theorem validStep_obst (c : BitVec 2) (d : Direction) (s : State) : (validStep c d s).obst = s.obst := rfl
@[simp] theorem validStep_phase (c : BitVec 2) (d : Direction) (s : State) : (validStep c d s).phase = s.phase := rfl
@[simp] theorem validStep_fault (c : BitVec 2) (d : Direction) (s : State) : (validStep c d s).fault = s.fault := rfl
@[simp] theorem validStep_started (c : BitVec 2) (d : Direction) (s : State) : (validStep c d s).started = s.started := rfl
@[simp] theorem validStep_tlmOut (c : BitVec 2) (d : Direction) (s : State) : (validStep c d s).tlmOut = s.tlmOut := rfl
@[simp] theorem validStep_sched (c : BitVec 2) (d : Direction) (s : State) : (validStep c d s).sched = s.sched := rfl

/-! ### Emitting a record -/

@[simp] theorem emitIf_cfg (tx : Bool) (r : Record) (s : State) : (emitIf tx r s).cfg = s.cfg := by
  cases tx <;> rfl
@[simp] theorem emitIf_prev (tx : Bool) (r : Record) (s : State) : (emitIf tx r s).prev = s.prev := by
  cases tx <;> rfl
@[simp] theorem emitIf_dir (tx : Bool) (r : Record) (s : State) : (emitIf tx r s).dir = s.dir := by
  cases tx <;> rfl
@[simp] theorem emitIf_dcf (tx : Bool) (r : Record) (s : State) : (emitIf tx r s).dcf = s.dcf := by
  cases tx <;> rfl
@[simp] theorem emitIf_tick (tx : Bool) (r : Record) (s : State) : (emitIf tx r s).tick = s.tick := by
  cases tx <;> rfl
@[simp] theorem emitIf_err (tx : Bool) (r : Record) (s : State) : (emitIf tx r s).err = s.err := by
  cases tx <;> rfl
@[simp] theorem emitIf_tsmp (tx : Bool) (r : Record) (s : State) : (emitIf tx r s).tsmp = s.tsmp := by
  cases tx <;> rfl
@[simp] theorem emitIf_tv (tx : Bool) (r : Record) (s : State) : (emitIf tx r s).tv = s.tv := by
  cases tx <;> rfl
@[simp] theorem emitIf_ta (tx : Bool) (r : Record) (s : State) : (emitIf tx r s).ta = s.ta := by
  cases tx <;> rfl
@[simp] theorem emitIf_cv (tx : Bool) (r : Record) (s : State) : (emitIf tx r s).cv = s.cv := by
  cases tx <;> rfl
@[simp] theorem emitIf_iter (tx : Bool) (r : Record) (s : State) : (emitIf tx r s).iter = s.iter := by
  cases tx <;> rfl
@[simp] theorem emitIf_loopc (tx : Bool) (r : Record) (s : State) : (emitIf tx r s).loopc = s.loopc := by
  cases tx <;> rfl
@[simp] theorem emitIf_obst (tx : Bool) (r : Record) (s : State) : (emitIf tx r s).obst = s.obst := by
  cases tx <;> rfl
@[simp] theorem emitIf_phase (tx : Bool) (r : Record) (s : State) : (emitIf tx r s).phase = s.phase := by
  cases tx <;> rfl
@[simp] theorem emitIf_fault (tx : Bool) (r : Record) (s : State) : (emitIf tx r s).fault = s.fault := by
  cases tx <;> rfl
@[simp] theorem emitIf_started (tx : Bool) (r : Record) (s : State) : (emitIf tx r s).started = s.started := by
  cases tx <;> rfl
@[simp] theorem emitIf_tlmOut (tx : Bool) (r : Record) (s : State) :
    (emitIf tx r s).tlmOut = s.tlmOut ++ (if tx = true then [r] else []) := by
  cases tx <;> simp [emitIf]
@[simp] theorem emitIf_sched (tx : Bool) (r : Record) (s : State) : (emitIf tx r s).sched = s.sched := by
  cases tx <;> rfl

/-! ### EDGE writes decoder registers only -/

@[simp] theorem decodeEdge_cfg (a b an bn : Bool) (s : State) : (decodeEdge a b an bn s).cfg = s.cfg := by
  unfold decodeEdge; split; rfl; split <;> rfl
@[simp] theorem decodeEdge_tsmp (a b an bn : Bool) (s : State) : (decodeEdge a b an bn s).tsmp = s.tsmp := by
  unfold decodeEdge; split; rfl; split <;> rfl
@[simp] theorem decodeEdge_tv (a b an bn : Bool) (s : State) : (decodeEdge a b an bn s).tv = s.tv := by
  unfold decodeEdge; split; rfl; split <;> rfl
@[simp] theorem decodeEdge_ta (a b an bn : Bool) (s : State) : (decodeEdge a b an bn s).ta = s.ta := by
  unfold decodeEdge; split; rfl; split <;> rfl
@[simp] theorem decodeEdge_cv (a b an bn : Bool) (s : State) : (decodeEdge a b an bn s).cv = s.cv := by
  unfold decodeEdge; split; rfl; split <;> rfl
@[simp] theorem decodeEdge_iter (a b an bn : Bool) (s : State) : (decodeEdge a b an bn s).iter = s.iter := by
  unfold decodeEdge; split; rfl; split <;> rfl
@[simp] theorem decodeEdge_loopc (a b an bn : Bool) (s : State) : (decodeEdge a b an bn s).loopc = s.loopc := by
  unfold decodeEdge; split; rfl; split <;> rfl
@[simp] theorem decodeEdge_obst (a b an bn : Bool) (s : State) : (decodeEdge a b an bn s).obst = s.obst := by
  unfold decodeEdge; split; rfl; split <;> rfl
@[simp] theorem decodeEdge_phase (a b an bn : Bool) (s : State) : (decodeEdge a b an bn s).phase = s.phase := by
  unfold decodeEdge; split; rfl; split <;> rfl
@[simp] theorem decodeEdge_fault (a b an bn : Bool) (s : State) : (decodeEdge a b an bn s).fault = s.fault := by
  unfold decodeEdge; split; rfl; split <;> rfl
@[simp] theorem decodeEdge_started (a b an bn : Bool) (s : State) : (decodeEdge a b an bn s).started = s.started := by
  unfold decodeEdge; split; rfl; split <;> rfl
@[simp] theorem decodeEdge_tlmOut (a b an bn : Bool) (s : State) : (decodeEdge a b an bn s).tlmOut = s.tlmOut := by
  unfold decodeEdge; split; rfl; split <;> rfl
@[simp] theorem decodeEdge_sched (a b an bn : Bool) (s : State) : (decodeEdge a b an bn s).sched = s.sched := by
  unfold decodeEdge; split; rfl; split <;> rfl

/-! ### COUNT -/

@[simp] theorem countState_cfg (s : State) : (countState s).cfg = s.cfg := by
  unfold countState; split <;> rfl
@[simp] theorem countState_prev (s : State) : (countState s).prev = s.prev := by
  unfold countState; split <;> rfl
@[simp] theorem countState_dir (s : State) : (countState s).dir = s.dir := by
  unfold countState; split <;> rfl
@[simp] theorem countState_dcf (s : State) : (countState s).dcf = s.dcf := by
  unfold countState; split <;> rfl
@[simp] theorem countState_err (s : State) : (countState s).err = s.err := by
  unfold countState; split <;> rfl
@[simp] theorem countState_tv (s : State) : (countState s).tv = s.tv := by
  unfold countState; split <;> rfl
@[simp] theorem countState_ta (s : State) : (countState s).ta = s.ta := by
  unfold countState; split <;> rfl
@[simp] theorem countState_cv (s : State) : (countState s).cv = s.cv := by
  unfold countState; split <;> rfl
@[simp] theorem countState_iter (s : State) : (countState s).iter = s.iter + 1 := by
  unfold countState; split <;> rfl
@[simp] theorem countState_loopc (s : State) : (countState s).loopc = wrap s.cfg.timeW (s.loopc + 1) := by
  unfold countState; split <;> rfl
@[simp] theorem countState_obst (s : State) : (countState s).obst = s.obst := by
  unfold countState; split <;> rfl
@[simp] theorem countState_fault (s : State) : (countState s).fault = s.fault := by
  unfold countState; split <;> rfl
@[simp] theorem countState_started (s : State) : (countState s).started = s.started := by
  unfold countState; split <;> rfl
@[simp] theorem countState_tlmOut (s : State) : (countState s).tlmOut = s.tlmOut := by
  unfold countState; split <;> rfl
@[simp] theorem countState_sched (s : State) : (countState s).sched = s.sched := by
  unfold countState; split <;> rfl

/-! ### FINISH -/

@[simp] theorem finishState_cfg (tx : Bool) (o : Operand) (s : State) : (finishState tx o s).cfg = s.cfg := by
  simp [finishState]
@[simp] theorem finishState_prev (tx : Bool) (o : Operand) (s : State) : (finishState tx o s).prev = s.prev := by
  simp [finishState]
@[simp] theorem finishState_dir (tx : Bool) (o : Operand) (s : State) : (finishState tx o s).dir = s.dir := by
  simp [finishState]
@[simp] theorem finishState_dcf (tx : Bool) (o : Operand) (s : State) : (finishState tx o s).dcf = false := by
  simp [finishState]
@[simp] theorem finishState_tick (tx : Bool) (o : Operand) (s : State) : (finishState tx o s).tick = s.tick := by
  simp [finishState]
@[simp] theorem finishState_err (tx : Bool) (o : Operand) (s : State) : (finishState tx o s).err = s.err := by
  simp [finishState]
@[simp] theorem finishState_tsmp (tx : Bool) (o : Operand) (s : State) : (finishState tx o s).tsmp = s.tsmp := by
  simp [finishState]
@[simp] theorem finishState_tv (tx : Bool) (o : Operand) (s : State) : (finishState tx o s).tv = s.tv := by
  simp [finishState]
@[simp] theorem finishState_ta (tx : Bool) (o : Operand) (s : State) : (finishState tx o s).ta = s.ta := by
  simp [finishState]
@[simp] theorem finishState_cv (tx : Bool) (o : Operand) (s : State) : (finishState tx o s).cv = s.cv := by
  simp [finishState]
@[simp] theorem finishState_iter (tx : Bool) (o : Operand) (s : State) : (finishState tx o s).iter = 0 := by
  simp [finishState]
@[simp] theorem finishState_loopc (tx : Bool) (o : Operand) (s : State) : (finishState tx o s).loopc = s.loopc := by
  simp [finishState]
@[simp] theorem finishState_obst (tx : Bool) (o : Operand) (s : State) : (finishState tx o s).obst = timestamp o s := by
  simp [finishState]
@[simp] theorem finishState_phase (tx : Bool) (o : Operand) (s : State) : (finishState tx o s).phase = .pRamp := by
  simp [finishState]
@[simp] theorem finishState_fault (tx : Bool) (o : Operand) (s : State) : (finishState tx o s).fault = s.fault := by
  simp [finishState]
@[simp] theorem finishState_started (tx : Bool) (o : Operand) (s : State) : (finishState tx o s).started = s.started := by
  simp [finishState]
@[simp] theorem finishState_tlmOut (tx : Bool) (o : Operand) (s : State) :
    (finishState tx o s).tlmOut = s.tlmOut ++ (if tx = true then [windowRecord o s] else []) := by
  simp [finishState]
@[simp] theorem finishState_sched (tx : Bool) (o : Operand) (s : State) : (finishState tx o s).sched = s.sched := by
  simp [finishState]

end Sys2Proof.Laws
end

