-- ==== Sys2Proof/Laws/Ops.lean ====
section
/-! SUPPORT. What each shared operation can answer: counters, the checks of 60_exceptions.md R205, and one inversion lemma
per operation and for exec, to be cited in place of unfolding. -/

namespace Sys2Proof.Laws

open Sys2Proof.Machine Sys2Proof.Safety

/-! ### Counters -/

theorem wrap_lt (n v : Nat) : wrap n v < 2 ^ n := Nat.mod_lt _ (Nat.two_pow_pos n)

theorem wrap_of_lt {n v : Nat} (h : v < 2 ^ n) : wrap n v = v := Nat.mod_eq_of_lt h

theorem wrap_zero (n : Nat) : wrap n 0 = 0 := Nat.zero_mod _

theorem wrapSub_lt (n x y : Nat) : wrapSub n x y < 2 ^ n := by
  have h := Nat.two_pow_pos n
  have h1 := Int.emod_lt_of_pos ((x : Int) - y) (show (0 : Int) < (2 ^ n : Nat) by exact_mod_cast h)
  have h2 := Int.emod_nonneg ((x : Int) - y) (show ((2 ^ n : Nat) : Int) ≠ 0 by exact_mod_cast h.ne')
  simp only [wrapSub]; omega

theorem wrapSub_self (n x : Nat) : wrapSub n x x = 0 := by simp [wrapSub]

/-- The modular difference is the one number below 2^n that adds up to the minuend. -/
theorem wrapSub_add (n x y : Nat) : (wrapSub n x y + y) % 2 ^ n = x % 2 ^ n := by
  have h := Nat.two_pow_pos n
  have h2 := Int.emod_nonneg ((x : Int) - y) (show ((2 ^ n : Nat) : Int) ≠ 0 by exact_mod_cast h.ne')
  have h3 : ((wrapSub n x y + y) % 2 ^ n : Nat) = ((x % 2 ^ n : Nat) : Int) := by
    push_cast
    rw [wrapSub, Int.toNat_of_nonneg h2]
    push_cast
    rw [Int.emod_add_emod]
    congr 1
    omega
  exact_mod_cast h3

/-- Counting on both sides of a modular difference. -/
theorem wrapSub_succ (n x y k : Nat) (h : wrapSub n x y = wrap n k) :
    wrapSub n (wrap n (x + 1)) y = wrap n (k + 1) := by
  have h1 := wrapSub_add n x y
  have h2 := wrapSub_add n (wrap n (x + 1)) y
  have l2 := wrapSub_lt n (wrap n (x + 1)) y
  rw [h] at h1
  simp only [wrap] at *
  rw [Nat.mod_mod] at h2
  have h3 : (wrapSub n ((x + 1) % 2 ^ n) y + y) % 2 ^ n = (k + 1 + y) % 2 ^ n := by
    rw [h2, ← Nat.mod_add_mod, ← h1, Nat.mod_add_mod, Nat.add_assoc, Nat.mod_add_mod]
    congr 1
    omega
  have h4 : wrapSub n ((x + 1) % 2 ^ n) y % 2 ^ n = (k + 1) % 2 ^ n := Nat.ModEq.add_right_cancel' y h3
  rw [← h4, Nat.mod_eq_of_lt l2]

/-! ### The checks -/

theorem next_eq_next {s t : State} : (Host.Outcome.next s : Result) = .next t ↔ t = s :=
  ⟨fun h => by injection h with h; exact h.symm, fun h => h ▸ rfl⟩

theorem unlessFaulted_next {s t : State} {r : Result} :
    unlessFaulted s r = .next t ↔ (s.started = true → s.fault = .none) ∧ r = .next t := by
  unfold unlessFaulted
  split
  · rename_i h; simp [h.1, h.2]
  · rename_i h; simp only [not_and, not_not] at h; exact ⟨fun hr => ⟨h, hr⟩, fun hr => hr.2⟩

theorem whenStarted_next {s t : State} {r : Result} : whenStarted s r = .next t ↔ Running s ∧ r = .next t := by
  unfold whenStarted
  split
  · rename_i h; simp [Running, h]
  · rename_i h; simp only [Bool.not_eq_false] at h; simp [unlessFaulted_next, Running, h]

theorem whenPhase_next {i : Instr} {p : Phase} {s t : State} {r : Result} :
    whenPhase i p s r = .next t ↔ s.phase = p ∧ r = .next t := by
  unfold whenPhase
  split
  · rename_i h; simp [h]
  · rename_i h; simp only [ne_eq, not_not] at h; simp [h]

theorem whenStarted_running {s : State} (h : Running s) (r : Result) : whenStarted s r = r := by
  simp [whenStarted, unlessFaulted, h.1, h.2]

theorem whenStarted_not_started {s : State} (h : s.started = false) (r : Result) :
    whenStarted s r = .refused .beforeReset := by
  simp [whenStarted, h]

theorem whenStarted_faulted {s : State} (h1 : s.started = true) (h2 : s.fault ≠ .none) (r : Result) :
    whenStarted s r = .fault (.noStep s) := by
  simp [whenStarted, unlessFaulted, h1, h2]

theorem whenPhase_named {i : Instr} {p : Phase} {s : State} (h : s.phase = p) (r : Result) :
    whenPhase i p s r = r := by
  simp [whenPhase, h]

theorem whenPhase_other {i : Instr} {p : Phase} {s : State} (h : s.phase ≠ p) (r : Result) :
    whenPhase i p s r = .refused (.disabled i s.phase) := by
  simp [whenPhase, h]

/-! ### The operations -/

theorem execReset_next {a b : Bool} {s t : State} :
    execReset a b s = .next t ↔ (s.started = true → s.fault = .none) ∧ t = loadReset a b s := by
  rw [execReset, unlessFaulted_next, next_eq_next]

theorem execEdge_next {a b an bn : Bool} {s t : State} :
    execEdge a b an bn s = .next t ↔ Running s ∧ t = decodeEdge a b an bn s := by
  rw [execEdge, whenStarted_next, next_eq_next]

theorem execSetv_next {v : F32} {s t : State} : execSetv v s = .next t ↔ Running s ∧ t = { s with tv := v } := by
  rw [execSetv, whenStarted_next, next_eq_next]

theorem execSeta_next {v : F32} {s t : State} : execSeta v s = .next t ↔ Running s ∧ t = { s with ta := v } := by
  rw [execSeta, whenStarted_next, next_eq_next]

theorem execRamp_next {s t : State} :
    execRamp s = .next t ↔ Running s ∧ s.phase = .pRamp ∧ rampInputsOk s.tv s.ta = true ∧
      t = { s with cv := rampNext s, phase := .pCount } := by
  rw [execRamp, whenStarted_next, whenPhase_next]
  split
  · rename_i h; rw [next_eq_next]; simp [h]
  · rename_i h; simp [h, raisePrecond]

theorem execCount_next {s t : State} :
    execCount s = .next t ↔ Running s ∧ s.phase = .pCount ∧ t = countState s := by
  rw [execCount, whenStarted_next, whenPhase_next, next_eq_next]

theorem execFinish_next {tx : Bool} {o : Operand} {s t : State} :
    execFinish tx o s = .next t ↔ Running s ∧ s.phase = .pFinish ∧ t = finishState tx o s := by
  rw [execFinish, whenStarted_next, whenPhase_next, next_eq_next]

/-- Everything a next state can be. -/
theorem exec_next_cases {i : Instr} {s t : State} (h : exec i s = .next t) :
    (∃ a b, i = .reset a b ∧ (s.started = true → s.fault = .none) ∧ t = loadReset a b s) ∨
    (Running s ∧
      ((∃ a b an bn, i = .edge a b an bn ∧ t = decodeEdge a b an bn s) ∨
       (∃ v, i = .setv v ∧ t = { s with tv := v }) ∨
       (∃ v, i = .seta v ∧ t = { s with ta := v }) ∨
       (i = .ramp ∧ s.phase = .pRamp ∧ rampInputsOk s.tv s.ta = true ∧
          t = { s with cv := rampNext s, phase := .pCount }) ∨
       (i = .count ∧ s.phase = .pCount ∧ t = countState s) ∨
       (∃ tx o, i = .finish tx o ∧ s.phase = .pFinish ∧ t = finishState tx o s))) := by
  cases i with
  | reset a b => exact .inl ⟨a, b, rfl, execReset_next.1 h⟩
  | edge a b an bn =>
    have h := execEdge_next.1 h
    exact .inr ⟨h.1, .inl ⟨a, b, an, bn, rfl, h.2⟩⟩
  | setv v =>
    have h := execSetv_next.1 h
    exact .inr ⟨h.1, .inr (.inl ⟨v, rfl, h.2⟩)⟩
  | seta v =>
    have h := execSeta_next.1 h
    exact .inr ⟨h.1, .inr (.inr (.inl ⟨v, rfl, h.2⟩))⟩
  | ramp =>
    have h := execRamp_next.1 h
    exact .inr ⟨h.1, .inr (.inr (.inr (.inl ⟨rfl, h.2⟩)))⟩
  | count =>
    have h := execCount_next.1 h
    exact .inr ⟨h.1, .inr (.inr (.inr (.inr (.inl ⟨rfl, h.2⟩))))⟩
  | finish tx o =>
    have h := execFinish_next.1 h
    exact .inr ⟨h.1, .inr (.inr (.inr (.inr (.inr ⟨tx, o, rfl, h.2⟩))))⟩

/-- What EDGE leaves: a mismatch counts an error and nothing else; otherwise PREV takes the code and the class decides. -/
theorem decodeEdge_cases (a b an bn : Bool) (s : State) :
    (s.cfg.complementCheck = true ∧ complementMismatch a b an bn = true ∧ decodeEdge a b an bn s = bumpErr s) ∨
    ((s.cfg.complementCheck && complementMismatch a b an bn) = false ∧
      ((qtrans s.prev (phaseCode a b) = .none ∧ decodeEdge a b an bn s = { s with prev := phaseCode a b }) ∨
       (qtrans s.prev (phaseCode a b) = .invalid ∧
          decodeEdge a b an bn s = bumpErr { s with prev := phaseCode a b }) ∨
       (qtrans s.prev (phaseCode a b) = .fwd ∧ decodeEdge a b an bn s = validStep (phaseCode a b) .cw s) ∨
       (qtrans s.prev (phaseCode a b) = .rev ∧ decodeEdge a b an bn s = validStep (phaseCode a b) .ccw s))) := by
  unfold decodeEdge
  split
  · rename_i h
    rw [Bool.and_eq_true] at h
    exact .inl ⟨h.1, h.2, rfl⟩
  · rename_i h
    rw [Bool.not_eq_true] at h
    refine .inr ⟨h, ?_⟩
    cases hq : qtrans s.prev (phaseCode a b) <;> simp

/-- What COUNT leaves: a report falls due exactly when the new count is INTERVAL. -/
theorem countState_cases (s : State) :
    (s.iter + 1 = s.cfg.interval ∧ (countState s).phase = .pFinish ∧ (countState s).tsmp = s.tick ∧
        (countState s).tick = 0) ∨
    (s.iter + 1 ≠ s.cfg.interval ∧ (countState s).phase = .pRamp ∧ (countState s).tsmp = s.tsmp ∧
        (countState s).tick = s.tick) := by
  unfold countState
  split
  · rename_i h; exact .inl ⟨h, rfl, rfl, rfl⟩
  · rename_i h; exact .inr ⟨h, rfl, rfl, rfl⟩

/-! ### Steps and runs -/

/-- Everything a step's next state can be: a legal configuration, a decoded operation, and its own next state. -/
theorem step_next {s t : State} (h : step s = .next t) :
    configLegal s.cfg = true ∧ ∃ i rest, decode s.cfg.timeW s.sched = .ok (i, rest) ∧
      exec i (advance rest s) = .next t := by
  unfold step fetch at h
  by_cases hc : configLegal s.cfg = true
  · rw [if_pos hc] at h
    cases hd : decode s.cfg.timeW s.sched with
    | error e => rw [hd] at h; simp at h
    | ok p => rw [hd] at h; exact ⟨hc, p.1, p.2, rfl, h⟩
  · rw [if_neg hc] at h; simp at h

theorem runOps_cons_next {i : Instr} {is : List Instr} {s t : State} :
    runOps (i :: is) s = .next t ↔ ∃ s', exec i s = .next s' ∧ runOps is s' = .next t := by
  simp only [runOps]
  cases exec i s <;> simp

theorem runOps_append_next {is js : List Instr} {s t : State} :
    runOps (is ++ js) s = .next t ↔ ∃ s', runOps is s = .next s' ∧ runOps js s' = .next t := by
  induction is generalizing s with
  | nil => simp [runOps]
  | cons i is ih =>
    simp only [List.cons_append, runOps_cons_next, ih]
    constructor
    · rintro ⟨u, h1, w, h2, h3⟩; exact ⟨w, ⟨u, h1, h2⟩, h3⟩
    · rintro ⟨w, ⟨u, h1, h2⟩, h3⟩; exact ⟨u, h1, w, h2, h3⟩

end Sys2Proof.Laws
end

