-- ==== Sys2Proof/Laws/PerInstr.lean ====
section
/-! SUPPORT. One statement about every operation as syntax: its header is the one word of the kind map's row for it
(30_encoding.md R72), and its length is the one KIND fixes (R71). -/

namespace Sys2Proof.Laws.HeaderOfKind

/-- The kind of an operation (R72). -/
def kindOfInstr : Instr → Kind
  | .reset _ _ => .reset
  | .edge _ _ _ _ => .edge
  | .setv _ => .setv
  | .seta _ => .seta
  | .ramp => .ramp
  | .count => .count
  | .finish _ _ => .finish

/-- The header matches its row's match and mask, the map reads the kind back, and an operand word follows exactly where
KIND says so. -/
def Statement (i : Instr) : Prop :=
  ∃ h rest, encode i = .header h :: rest ∧ h &&& kindMask (kindOfInstr i) = kindMatch (kindOfInstr i) ∧
    kindOf (headerKind h) = some (kindOfInstr i) ∧
    rest.length = (if hasOperand (kindOfInstr i) then 1 else 0)

theorem reset (a b : Bool) : Statement (.reset a b) := by
  refine ⟨_, _, rfl, ?_⟩
  cases a <;> cases b <;> decide

theorem edge (a b an bn : Bool) : Statement (.edge a b an bn) := by
  refine ⟨_, _, rfl, ?_⟩
  cases a <;> cases b <;> cases an <;> cases bn <;> decide

theorem setv (v : F32) : Statement (.setv v) := ⟨_, _, rfl, by simp only [kindOfInstr]; decide, rfl, rfl⟩

theorem seta (v : F32) : Statement (.seta v) := ⟨_, _, rfl, by simp only [kindOfInstr]; decide, rfl, rfl⟩

theorem ramp : Statement .ramp := ⟨_, _, rfl, by decide⟩

theorem count : Statement .count := ⟨_, _, rfl, by decide⟩

theorem finish (tx : Bool) (o : Operand) : Statement (.finish tx o) := by
  refine ⟨_, _, rfl, ?_, ?_, rfl⟩ <;> cases tx <;> simp only [kindOfInstr] <;> decide

end Sys2Proof.Laws.HeaderOfKind
end

