-- ==== Sys2Proof/Laws/Ramp.lean ====
section
/-! SUPPORT. The step size of the ramp (41_ramp.md R130). -/

namespace Sys2Proof.Laws

open Sys2Proof.Machine

/-- `m` is no NaN and not below 0 when DT is legal and the acceleration well formed. -/
theorem rampMax_nonneg {c ta : F32} (h : f32IsFinite c = true) (hg : f32Gt c 0#32 = true)
    (hf : f32IsFinite ta = true) (hl : f32Le 0#32 ta = true) :
    f32IsNaN (f32Mul ta c) = false ∧ 0 ≤ f32Key (f32Mul ta c) := by
  refine ⟨f32Mul_not_nan hf h, ?_⟩
  rw [f32Mul_finite hf h]
  have hc : f32Sign c = false := by
    rw [f32Gt_iff (not_nan_of_finite h) (by decide)] at hg
    by_contra hs
    have h0 : f32Key (0#32) = 0 := by decide
    rw [h0] at hg
    simp only [f32Key] at hg
    simp at hs
    simp [hs] at hg; omega
  have : f32Sign ta = false ∨ f32Mag ta = 0 := by
    rw [f32Le_iff (by decide) (not_nan_of_finite hf)] at hl
    have h0 : f32Key (0#32) = 0 := by decide
    rw [h0] at hl
    simp only [f32Key] at hl
    by_cases hs : f32Sign ta = true
    · right; simp [hs] at hl; omega
    · left; simpa using hs
  rcases this with hs | hm
  · simp [f32Key, hs, hc]
  · have : f32Units ta = 0 := by rw [f32Units_eq, unitsOfMag_eq_zero, hm]
    simp only [this, Nat.zero_mul, roundMag_zero]
    simp [f32Key]

end Sys2Proof.Laws
end

