-- ==== Sys2Proof/Laws/Rounding.lean ====
section
/-! SUPPORT. What rounding picks (00_scope.md R8): no binary32 number is nearer, the even one of a tie, and infinity only from
half a unit past the largest finite number on. -/

namespace Sys2Proof.Laws

open Sys2Proof.Machine

/-- A magnitude by its quantum `2^d` and its significand `q`; a carry to `2^24` included. -/
theorem unitsOfMag_scaled {d q : Nat} (h : d = 0 ∨ 2 ^ 23 ≤ q) (hq : q ≤ 2 ^ 24) :
    unitsOfMag (d * 2 ^ 23 + q) = q * 2 ^ d := by
  unfold unitsOfMag
  rcases Nat.lt_or_ge q (2 ^ 23) with h1 | h1
  · obtain rfl : d = 0 := by omega
    rw [if_pos (by omega), Nat.pow_zero, Nat.zero_mul, Nat.zero_add, Nat.mul_one, Nat.mod_eq_of_lt h1]
  · rcases Nat.lt_or_ge q (2 ^ 24) with h2 | h2
    · rw [if_neg (by omega), show (d * 2 ^ 23 + q) / 2 ^ 23 - 1 = d by omega,
        show (d * 2 ^ 23 + q) % 2 ^ 23 = q - 2 ^ 23 by omega, show 2 ^ 23 + (q - 2 ^ 23) = q by omega]
    · have hq' : q = 2 ^ 23 * 2 := by omega
      have e1 : (d * 2 ^ 23 + q) / 2 ^ 23 - 1 = d + 1 := by omega
      have e2 : (d * 2 ^ 23 + q) % 2 ^ 23 = 0 := by omega
      have e3 : (2 ^ 23 + 0) * 2 ^ (d + 1) = (2 ^ 23 * 2) * 2 ^ d := by ring
      rw [if_neg (by omega), e1, e2, e3, ← hq']

/-- A rounded quotient is the one below or the one above, the nearer, the even one of a tie. -/
theorem roundShift_cases (n sh : Nat) :
    (roundShift n sh = n / 2 ^ sh ∧ 2 * (n % 2 ^ sh) ≤ 2 ^ sh ∧ (2 * (n % 2 ^ sh) = 2 ^ sh → n / 2 ^ sh % 2 = 0)) ∨
    (roundShift n sh = n / 2 ^ sh + 1 ∧ 2 ^ sh ≤ 2 * (n % 2 ^ sh) ∧
      (2 * (n % 2 ^ sh) = 2 ^ sh → n / 2 ^ sh % 2 = 1)) := by
  simp only [roundShift]; split <;> omega

/-- Bits 30:0 before the largest magnitude bounds them. -/
def roundRaw (n k : Nat) : Nat := (roundDrop n k - k) * 2 ^ 23 + roundShift n (roundDrop n k)

theorem roundMag_eq_min (n k : Nat) : roundMag n k = min (roundRaw n k) infMag := rfl

/-- The value a rounding picks, and its two neighbours' bounds: with `q` the quotient below and `d` the bits dropped, every
magnitude is at most `q * 2^d` or at least `(q + 1) * 2^d`. -/
theorem roundRaw_spec (n k : Nat) :
    unitsOfMag (roundRaw n k) * 2 ^ k = roundShift n (roundDrop n k) * 2 ^ roundDrop n k ∧
    ∀ p, (p ≤ (roundDrop n k - k) * 2 ^ 23 + n / 2 ^ roundDrop n k ∧
          unitsOfMag p * 2 ^ k ≤ n / 2 ^ roundDrop n k * 2 ^ roundDrop n k) ∨
        ((roundDrop n k - k) * 2 ^ 23 + n / 2 ^ roundDrop n k + 1 ≤ p ∧
          (n / 2 ^ roundDrop n k + 1) * 2 ^ roundDrop n k ≤ unitsOfMag p * 2 ^ k) := by
  have hk := le_roundDrop n k
  have hlt := lt_two_pow_roundDrop n k
  have hlo : roundDrop n k - k = 0 ∨ 2 ^ 23 ≤ n / 2 ^ roundDrop n k := by
    rcases Nat.lt_or_ge k (roundDrop n k) with h | h
    · right
      have := two_pow_roundDrop_le h
      rw [Nat.pow_add, Nat.mul_comm] at this
      exact (Nat.le_div_iff_mul_le (Nat.two_pow_pos _)).2 this
    · left; omega
  have hhi : n / 2 ^ roundDrop n k < 2 ^ 24 := by
    rw [Nat.pow_add, Nat.mul_comm] at hlt
    exact (Nat.div_lt_iff_lt_mul (Nat.two_pow_pos _)).2 hlt
  have scale : ∀ q, (roundDrop n k - k = 0 ∨ 2 ^ 23 ≤ q) → q ≤ 2 ^ 24 →
      unitsOfMag ((roundDrop n k - k) * 2 ^ 23 + q) * 2 ^ k = q * 2 ^ roundDrop n k := by
    intro q h1 h2
    rw [unitsOfMag_scaled h1 h2, Nat.mul_assoc, ← Nat.pow_add, Nat.sub_add_cancel hk]
  have hs : roundShift n (roundDrop n k) = n / 2 ^ roundDrop n k ∨
      roundShift n (roundDrop n k) = n / 2 ^ roundDrop n k + 1 := by
    simp only [roundShift]; split <;> simp
  refine ⟨scale _ (by omega) (by omega), fun p => ?_⟩
  rcases Nat.lt_or_ge ((roundDrop n k - k) * 2 ^ 23 + n / 2 ^ roundDrop n k) p with h | h
  · right
    refine ⟨h, ?_⟩
    rw [← scale (n / 2 ^ roundDrop n k + 1) (by omega) (by omega)]
    exact Nat.mul_le_mul_right _ (unitsOfMag_strictMono.monotone (by omega))
  · left
    refine ⟨h, ?_⟩
    rw [← scale (n / 2 ^ roundDrop n k) hlo (by omega)]
    exact Nat.mul_le_mul_right _ (unitsOfMag_strictMono.monotone h)

/-- The arithmetic of `roundRaw_nearest`: `n = Q + r` lies between the neighbours `Q` and `Q + D`, and `x` beyond one of
them. -/
theorem nearest_of_neighbours {n Q r D x V m M p : Nat} (e : Q + r = n) (hr : r < D)
    (hx : p ≤ m ∧ x ≤ Q ∨ m + 1 ≤ p ∧ Q + D ≤ x)
    (hV : (V = Q ∧ M = m ∧ 2 * r ≤ D ∧ (2 * r = D → m % 2 = 0)) ∨
      (V = Q + D ∧ M = m + 1 ∧ D ≤ 2 * r ∧ (2 * r = D → m % 2 = 1)))
    (hm : (p < M → x < V) ∧ (M < p → V < x)) :
    |(V : Int) - n| ≤ |(x : Int) - n| ∧ (|(V : Int) - n| = |(x : Int) - n| → p ≠ M → M % 2 = 0) := by
  rcases hV with ⟨rfl, rfl, h1, h2⟩ | ⟨rfl, rfl, h1, h2⟩
  · have hb : |(V : Int) - n| = n - V := by rw [abs_of_nonpos (by omega)]; omega
    rw [hb]
    rcases abs_cases ((x : Int) - n) with ⟨ha, _⟩ | ⟨ha, _⟩ <;> rw [ha] <;> omega
  · have hb : |((Q + D : Nat) : Int) - n| = (Q + D : Nat) - n := abs_of_nonneg (by omega)
    rw [hb]
    rcases abs_cases ((x : Int) - n) with ⟨ha, _⟩ | ⟨ha, _⟩ <;> rw [ha] <;> omega

/-- No magnitude is nearer than the one rounding picks, and of two equally near it picks the even one. -/
theorem roundRaw_nearest (n k p : Nat) :
    |((unitsOfMag (roundRaw n k) * 2 ^ k : Nat) : Int) - n| ≤ |((unitsOfMag p * 2 ^ k : Nat) : Int) - n| ∧
    (|((unitsOfMag (roundRaw n k) * 2 ^ k : Nat) : Int) - n| = |((unitsOfMag p * 2 ^ k : Nat) : Int) - n| →
      p ≠ roundRaw n k → roundRaw n k % 2 = 0) := by
  obtain ⟨h1, h2⟩ := roundRaw_spec n k
  have hs := roundShift_cases n (roundDrop n k)
  have hq : n / 2 ^ roundDrop n k * 2 ^ roundDrop n k + n % 2 ^ roundDrop n k = n := by
    rw [Nat.mul_comm]; exact Nat.div_add_mod _ _
  have hstrict : ∀ y z : Nat, y < z → unitsOfMag y * 2 ^ k < unitsOfMag z * 2 ^ k := fun y z h =>
    (Nat.mul_lt_mul_right (Nat.two_pow_pos k)).2 (unitsOfMag_strictMono h)
  have h2 := h2 p
  rw [Nat.add_mul, Nat.one_mul] at h2
  refine nearest_of_neighbours hq (Nat.mod_lt n (Nat.two_pow_pos _)) h2 ?_ ⟨hstrict _ _, hstrict _ _⟩
  rw [h1]
  rcases hs with ⟨hs, hr, ht⟩ | ⟨hs, hr, ht⟩
  · exact .inl ⟨by rw [hs], by rw [roundRaw, hs], hr, fun h => by have := ht h; omega⟩
  · exact .inr ⟨by rw [hs, Nat.add_mul, Nat.one_mul], by rw [roundRaw, hs, Nat.add_assoc], hr, fun h => by have := ht h; omega⟩

/-- Rounding overflows only from half a unit past the largest finite number on. -/
theorem infMag_le_roundRaw {n k : Nat} (h : infMag ≤ roundRaw n k) :
    (2 ^ 25 - 1) * 2 ^ 253 * 2 ^ k ≤ 2 * n := by
  have h1 := (roundRaw_nearest n k (infMag - 1)).1
  have h2 : unitsOfMag infMag * 2 ^ k ≤ unitsOfMag (roundRaw n k) * 2 ^ k :=
    Nat.mul_le_mul_right _ (unitsOfMag_strictMono.monotone h)
  have e1 : unitsOfMag infMag = 2 ^ 24 * 2 ^ 253 := by decide
  have e2 : unitsOfMag (infMag - 1) = (2 ^ 24 - 1) * 2 ^ 253 := by decide
  rw [e2] at h1
  rw [e1] at h2
  generalize unitsOfMag (roundRaw n k) * 2 ^ k = x at *
  rw [Nat.mul_assoc] at *
  generalize 2 ^ 253 * 2 ^ k = D at *
  rcases abs_cases ((x : Int) - n) with ⟨ha, _⟩ | ⟨ha, _⟩ <;>
    rcases abs_cases ((((2 ^ 24 - 1) * D : Nat) : Int) - n) with ⟨hb, _⟩ | ⟨hb, _⟩ <;> rw [ha, hb] at h1 <;> omega

/-- From half a unit past the largest finite number on, rounding overflows: the number at the half is odd, so the tie goes up.
-/
theorem infMag_le_roundRaw_of_le {n k : Nat} (h : (2 ^ 25 - 1) * 2 ^ 253 * 2 ^ k ≤ 2 * n) : infMag ≤ roundRaw n k := by
  by_contra hlt
  obtain ⟨h1, h2⟩ := roundRaw_nearest n k infMag
  have hle : unitsOfMag (roundRaw n k) * 2 ^ k ≤ unitsOfMag (infMag - 1) * 2 ^ k :=
    Nat.mul_le_mul_right _ (unitsOfMag_strictMono.monotone (by omega))
  have htop : unitsOfMag (roundRaw n k) * 2 ^ k = unitsOfMag (infMag - 1) * 2 ^ k → roundRaw n k = infMag - 1 := fun e =>
    unitsOfMag_strictMono.injective (Nat.eq_of_mul_eq_mul_right (Nat.two_pow_pos k) e)
  have e1 : unitsOfMag infMag = 2 ^ 24 * 2 ^ 253 := by decide
  have e2 : unitsOfMag (infMag - 1) = (2 ^ 24 - 1) * 2 ^ 253 := by decide
  have hodd : (infMag - 1) % 2 = 1 := by decide
  rw [e1] at h1 h2
  rw [e2] at hle htop
  generalize roundRaw n k = m at *
  generalize unitsOfMag m * 2 ^ k = x at *
  rw [Nat.mul_assoc] at *
  have hD : 0 < 2 ^ 253 * 2 ^ k := Nat.mul_pos (Nat.two_pow_pos _) (Nat.two_pow_pos _)
  generalize 2 ^ 253 * 2 ^ k = D at *
  rcases abs_cases ((x : Int) - n) with ⟨ha, _⟩ | ⟨ha, _⟩ <;>
    rcases abs_cases (((2 ^ 24 * D : Nat) : Int) - n) with ⟨hb, _⟩ | ⟨hb, _⟩ <;> rw [ha, hb] at h1 h2 <;> omega

/-- Rounding gives the magnitude of infinity exactly from half a unit past the largest finite number on. -/
theorem roundMag_eq_infMag_iff {n k : Nat} :
    roundMag n k = infMag ↔ (2 ^ 25 - 1) * 2 ^ 253 * 2 ^ k ≤ 2 * n := by
  rw [roundMag_eq_min, min_eq_right_iff]
  exact ⟨infMag_le_roundRaw, infMag_le_roundRaw_of_le⟩

/-- A magnitude below the largest is the rounded one itself. -/
theorem roundRaw_eq_of_lt {n k : Nat} (h : roundMag n k < infMag) : roundRaw n k = roundMag n k := by
  rw [roundMag_eq_min] at *; omega

/-- An infinite magnitude comes from a rounded one at least as large. -/
theorem infMag_le_of_not_lt {n k : Nat} (h : ¬roundMag n k < infMag) : infMag ≤ roundRaw n k := by
  rw [roundMag_eq_min] at *; omega

/-- The same with signs: a pattern of the rounded magnitude of `n` with the sign of `v = ±n` is nearest to `v`. -/
theorem nearest_of_mag (n k : Nat) (s : Bool) (r c : F32) (h : f32Mag r = roundRaw n k) (hs : f32Sign r = s) (v : Int)
    (hv : v = if s then -(n : Int) else n) :
    |f32Value r * 2 ^ k - v| ≤ |f32Value c * 2 ^ k - v| ∧
    (|f32Value r * 2 ^ k - v| = |f32Value c * 2 ^ k - v| → f32Value c ≠ f32Value r → f32Mag r % 2 = 0) := by
  have key := roundRaw_nearest n k
  have k0 := key 0
  have kc := key (f32Mag c)
  have hu : unitsOfMag 0 = 0 := by decide
  rw [hu, Nat.zero_mul] at k0
  have er : f32Units r = unitsOfMag (roundRaw n k) := by rw [f32Units_eq, h]
  have ec : f32Units c = unitsOfMag (f32Mag c) := f32Units_eq c
  have hne : f32Mag c ≠ roundRaw n k ∨ f32Units c = f32Units r := by
    by_cases he : f32Mag c = roundRaw n k
    · right; rw [er, ec, he]
    · left; exact he
  have hz : f32Mag c = 0 ↔ f32Units c = 0 := by rw [ec, unitsOfMag_eq_zero]
  rw [h]
  simp only [f32Value, hs]
  rw [← er, ← ec] at kc
  rw [← er] at k0
  have pc : f32Units c = 0 → f32Units c * 2 ^ k = 0 := by intro h; rw [h, Nat.zero_mul]
  have pc' : f32Units c ≠ 0 → 0 < f32Units c * 2 ^ k := fun h => Nat.mul_pos (by omega) (Nat.two_pow_pos _)
  have i1 : ((f32Units r : Int)) * 2 ^ k = ((f32Units r * 2 ^ k : Nat) : Int) := by push_cast; rfl
  have i2 : (-(f32Units r : Int)) * 2 ^ k = -((f32Units r * 2 ^ k : Nat) : Int) := by push_cast; ring
  have i3 : ((f32Units c : Int)) * 2 ^ k = ((f32Units c * 2 ^ k : Nat) : Int) := by push_cast; rfl
  have i4 : (-(f32Units c : Int)) * 2 ^ k = -((f32Units c * 2 ^ k : Nat) : Int) := by push_cast; ring
  have neq : ∀ a b : Int, |-a - -b| = |a - b| := by intro a b; rw [← abs_neg]; congr 1; ring
  have opp : ∀ x : Nat, |((x:Nat):Int) - (-(n:Int))| = x + n := by intro x; rw [abs_of_nonneg (by omega)]; omega
  have opp' : ∀ x : Nat, |-((x:Nat):Int) - ((n:Int))| = x + n := by intro x; rw [abs_of_nonpos (by omega)]; omega
  have z0 : |((0:Nat):Int) - n| = n := by rw [abs_of_nonpos (by omega)]; omega
  rw [z0] at k0
  subst hv
  cases s <;> cases hc : f32Sign c <;> simp only [if_true, if_false, Bool.false_eq_true, i1, i2, i3, i4, neq, opp, opp']
  · refine ⟨kc.1, fun h1 h2 => kc.2 h1 ?_⟩
    rcases hne with h | h
    · exact h
    · rw [h] at h2; simp at h2
  · refine ⟨by have := k0.1; omega, fun h1 h2 => ?_⟩
    by_cases hcz : f32Units c = 0
    · have := pc hcz; rw [this] at h1
      refine k0.2 (by rw [h1]; simp) ?_
      intro h0; apply h2; rw [hcz]; rw [er, ← h0, hu]; rfl
    · have := pc' hcz; have := k0.1; omega
  · refine ⟨by have := k0.1; omega, fun h1 h2 => ?_⟩
    by_cases hcz : f32Units c = 0
    · have := pc hcz; rw [this] at h1
      refine k0.2 (by rw [h1]; simp) ?_
      intro h0; apply h2; rw [hcz]; rw [er, ← h0, hu]; rfl
    · have := pc' hcz; have := k0.1; omega
  · refine ⟨kc.1, fun h1 h2 => kc.2 h1 ?_⟩
    rcases hne with h | h
    · exact h
    · rw [h] at h2; simp at h2

end Sys2Proof.Laws
end

