-- ==== Sys2Proof/Laws/Runs.lean ====
section
/-! SUPPORT. What one EDGE adds to the sample history (40_decoder.md R102 to R105), and that no operation reads the schedule. -/

namespace Sys2Proof.Laws

open Sys2Proof.Machine Sys2Proof.Safety

/-- The first sample adds its direction, if it is accepted and valid, and gives the next its phase code. -/
theorem validDirs_cons (c : Config) (p : BitVec 2) (x : Sample) (xs : List Sample) :
    validDirs c p (x :: xs) =
      if accepted c x then (classDir (qtrans p (phaseCode x.a x.b))).toList ++ validDirs c (phaseCode x.a x.b) xs
      else validDirs c p xs := by
  unfold validDirs codes
  by_cases h : accepted c x = true
  · simp [h, classes, List.filterMap_cons]
    cases classDir (qtrans p (phaseCode x.a x.b)) <;> simp
  · simp [h]

/-- What EDGE leaves, in the terms of the sample history. -/
theorem decodeEdge_history (a b an bn : Bool) (s : State) :
    (accepted s.cfg ⟨a, b, an, bn⟩ = false ∧ decodeEdge a b an bn s = bumpErr s) ∨
    (accepted s.cfg ⟨a, b, an, bn⟩ = true ∧ (decodeEdge a b an bn s).prev = phaseCode a b ∧
      ((classDir (qtrans s.prev (phaseCode a b)) = none ∧ (decodeEdge a b an bn s).dir = s.dir ∧
          (decodeEdge a b an bn s).dcf = s.dcf ∧ (decodeEdge a b an bn s).tick = s.tick) ∨
        ∃ d, (d = .cw ∨ d = .ccw) ∧ classDir (qtrans s.prev (phaseCode a b)) = some d ∧
          (decodeEdge a b an bn s).dir = d ∧ (decodeEdge a b an bn s).dcf = dcfAfter s.dir d s.dcf ∧
          (decodeEdge a b an bn s).tick = wrap s.cfg.tickW (s.tick + 1))) := by
  have dd : ∀ o d, dirAfter o d = d := by intro o d; unfold dirAfter; split <;> simp_all
  rcases decodeEdge_cases a b an bn s with ⟨h1, h2, h3⟩ | ⟨h1, ⟨h2, h3⟩ | ⟨h2, h3⟩ | ⟨h2, h3⟩ | ⟨h2, h3⟩⟩
  · left; exact ⟨by simp [accepted, h1, h2], h3⟩
  all_goals (right; refine ⟨by simp only [accepted, h1, Bool.not_false], by rw [h3] <;> rfl, ?_⟩)
  · left; rw [h3]; simp [h2, classDir]
  · left; rw [h3]; simp [h2, classDir]
  · right; refine ⟨.cw, .inl rfl, ?_⟩; rw [h3]; simp [h2, classDir, dd]
  · right; refine ⟨.ccw, .inr rfl, ?_⟩; rw [h3]; simp [h2, classDir, dd]

/-- No operation reads or writes the schedule. -/
theorem exec_sched (i : Instr) (s t : State) (ws : List SchedWord) (h1 : exec i s = .next t) :
    exec i { s with sched := ws } = .next { t with sched := ws } := by
  rcases exec_next_cases h1 with
    ⟨a, b, rfl, h, rfl⟩ | ⟨hr, ⟨a, b, an, bn, rfl, rfl⟩ | ⟨v, rfl, rfl⟩ | ⟨v, rfl, rfl⟩ |
      ⟨rfl, hp, ho, rfl⟩ | ⟨rfl, hp, rfl⟩ | ⟨tx, o, rfl, hp, rfl⟩⟩
  · exact execReset_next.2 ⟨h, rfl⟩
  · refine execEdge_next.2 ⟨hr, ?_⟩; unfold decodeEdge; dsimp only; split
    · rfl
    · split <;> rfl
  · exact execSetv_next.2 ⟨hr, rfl⟩
  · exact execSeta_next.2 ⟨hr, rfl⟩
  · exact execRamp_next.2 ⟨hr, hp, ho, rfl⟩
  · refine execCount_next.2 ⟨hr, hp, ?_⟩; unfold countState; dsimp only; split <;> rfl
  · refine execFinish_next.2 ⟨hr, hp, ?_⟩; unfold finishState emitIf; dsimp only; split <;> rfl

end Sys2Proof.Laws
end

