-- ==== Sys2Proof/Tests/Slice0.lean ====
section
/-! SUPPORT. The model's own tests: well-formedness, words written out from 30_encoding.md R72, vectors of 95_test_vectors.md
(each test names its own), and, for every statement with hypotheses, a state and operands that meet them. -/

namespace Sys2Proof.Tests

open Sys2Proof.Machine Sys2Proof.Safety

/-! ### Helpers -/

/-- The outcome is a next state of which `p` holds. -/
def nextWith (r : Result) (p : State → Bool) : Bool :=
  match r with
  | .next t => p t
  | .fault _ => false
  | .refused _ => false

/-- The outcome is this refusal. -/
def refusedWith (r : Result) (x : Refusal) : Bool :=
  match r with
  | .next _ => false
  | .fault _ => false
  | .refused y => y == x

/-- The outcome is this fault. -/
def faultWith (r : Result) (x : Fault) : Bool :=
  match r with
  | .next _ => false
  | .fault y => y == x
  | .refused _ => false

/-- A small configuration: two iterations a window, narrow counters, complements checked. -/
def small : Config :=
  { Config.standard with interval := 2, tickW := 4, errW := 4, iterW := 4, timeW := 16, complementCheck := true }

/-- After RESET 00 at that configuration. -/
def sSmall : State := { State.reset with cfg := small }

/-- Before the first RESET. -/
def sOff : State := { State.reset with started := false, tv := 0x7FC00000#32, err := 7 }

/-- After a fault. -/
def sFault : State := { State.reset with fault := .precond }

/-- At a position of the main loop. -/
def atPhase (p : Phase) : State := { State.reset with phase := p }

/-- At a position of the main loop with the external time base. -/
def external (p : Phase) : State := { State.reset with phase := p, cfg := { Config.standard with timeSource := .external } }

/-- At P_RAMP with these CV, TV and TA. -/
def rampAt (cv tv ta : F32) : State := { State.reset with cv := cv, tv := tv, ta := ta }

/-- With these words scheduled. -/
def withWords (s : State) (ws : List SchedWord) : State := { s with sched := ws }

/-! ### Well-formedness (R72: o[31:TIME_W] of FINISH is reserved) -/

theorem test_wf_finish_reserved_bits : Instr.wellFormed 16 (.finish true 0x00010000#32) = false := by decide

theorem test_wf_finish_top_bit : Instr.wellFormed 31 (.finish false 0x80000000#32) = false := by decide

theorem test_wf_finish_widest : Instr.wellFormed 16 (.finish true 0x0000FFFF#32) = true := by decide

theorem test_wf_finish_full_width : Instr.wellFormed 32 (.finish true 0xFFFFFFFF#32) = true := by decide

/-! ### Words written out bit by bit from R72, KIND then ARG -/

theorem test_decode_reset : decode 32 [.header 0b0001000000000010#16] = .ok (.reset true false, []) := by decide

theorem test_decode_edge_an : decode 32 [.header 0b0010000000001000#16] = .ok (.edge false false true false, []) := by
  decide

theorem test_decode_edge_b : decode 32 [.header 0b0010000000000001#16] = .ok (.edge false true false false, []) := by
  decide

theorem test_decode_setv :
    decode 32 [.header 0b0011000000000000#16, .operand 0x42C80000#32, .header 0x5000#16]
      = .ok (.setv 0x42C80000#32, [.header 0x5000#16]) := by decide

theorem test_decode_seta :
    decode 32 [.header 0b0100000000000000#16, .operand 0x41200000#32] = .ok (.seta 0x41200000#32, []) := by decide

theorem test_decode_ramp : decode 32 [.header 0b0101000000000000#16] = .ok (.ramp, []) := by decide

theorem test_decode_count : decode 32 [.header 0b0110000000000000#16] = .ok (.count, []) := by decide

theorem test_decode_finish :
    decode 32 [.header 0b0111000000000001#16, .operand 0x00000064#32] = .ok (.finish true 0x64#32, []) := by decide

/-- L2-1m: reserved bits are checked before the operand. -/
theorem test_decode_reserved_before_operand : decode 32 [.header 0x3001#16] = .error (.reservedBits 0x3001#16) := by decide

/-- P4, the FINISH of a dropped window. -/
theorem test_encode_finish : encode (.finish false 0#32) = [.header 0x7000#16, .operand 0#32] := by decide

/-- P1's word stream. -/
theorem test_assemble_p1 :
    assemble 10000 0 [.reset false false, .step false true, .step true true, .step true false, .step false false]
      = [.header 0x1000#16, .header 0x2009#16, .header 0x2003#16, .header 0x2006#16, .header 0x200C#16] := by decide

/-- G3: 100.0 = 0x42C80000. -/
theorem test_bits32 : litBits (.decimal false 100 1) = 0x42C80000#32 := by decide

/-- L2-7's 0.1: a decimal that is rounded. -/
theorem test_bits32_rounds : litBits (.decimal false 1 10) = 0x3DCCCCCD#32 := by decide

theorem test_table_word : decodeTableWord 48 0x42C800003000 = some (.setv 0x42C80000#32) := by decide

theorem test_table_word_short : decodeTableWord 16 0x7001 = some (.finish true 0#32) := by decide

theorem test_fetch_word_ramp :
    nextWith (step (State.reset.withFetchWord 16 0x5000)) (fun t => t.phase == .pCount && t.sched == []) = true := by decide

theorem test_fetch_word_count :
    nextWith (step (State.reset.withFetchWord 16 0x6000)) (fun t => t.iter == 1) = true := by decide

theorem test_fetch_word_finish :
    nextWith (step (State.reset.withFetchWord 48 0x7001)) (fun t => t.tlmOut.length == 1) = true := by decide

theorem test_fetch_word_setv :
    nextWith (step (State.reset.withFetchWord 48 0x42C800003000)) (fun t => t.tv == 0x42C80000#32) = true := by decide

/-! ### Operations, one step each -/

/-- L2-10a: the due report is abandoned, the record already handed over is not. -/
theorem test_reset_abandons :
    nextWith (exec (.reset true true) { atPhase .pFinish with tsmp := 7, tlmOut := [⟨1, 2, .cw, true⟩] })
      (fun t => t.prev == 0b11#2 && t.tsmp == 0 && t.phase == .pRamp && t.tlmOut == [⟨1, 2, .cw, true⟩]) = true := by decide

/-- L2-2j. -/
theorem test_reset_after_fault : faultWith (exec (.reset false false) sFault) (.noStep sFault) = true := by decide

/-- L1-5a. -/
theorem test_edge_reversal :
    nextWith (exec (.edge true false false true) { State.reset with dir := .cw, tick := 7 })
      (fun t => t.prev == 0b10#2 && t.tick == 8 && t.dir == .ccw && t.dcf) = true := by decide

/-- L2-6b. -/
theorem test_edge_mismatch :
    nextWith (exec (.edge false true false false) sSmall)
      (fun t => t.err == 1 && t.prev == 0b00#2 && t.tick == 0 && t.dir == .unknown) = true := by decide

/-- L2-8b: the payload is kept. -/
theorem test_setv_nan :
    nextWith (exec (.setv 0x7FC00001#32) (atPhase .pFinish)) (fun t => t.tv == 0x7FC00001#32 && t.phase == .pFinish)
      = true := by decide

/-- L2-8c. -/
theorem test_seta_negative_zero :
    nextWith (exec (.seta 0x80000000#32) State.reset) (fun t => t.ta == 0x80000000#32 && t.tv == 0#32) = true := by decide

/-- L2-7q: a tie rounds to even, upward. -/
theorem test_ramp_tie :
    nextWith (exec .ramp (rampAt 0x4B800001#32 0x4C000000#32 0x3F800000#32)) (fun t => t.cv == 0x4B800002#32)
      = true := by decide +kernel

/-- L2-7c: clamp down. -/
theorem test_ramp_down :
    nextWith (exec .ramp (rampAt 0x42480000#32 0xC1C80000#32 0x41200000#32)) (fun t => t.cv == 0x42200000#32)
      = true := by decide +kernel

/-- L1-5e. -/
theorem test_count_due :
    nextWith (exec .count { atPhase .pCount with iter := 9999, tick := 42 })
      (fun t => t.iter == 10000 && t.tsmp == 42 && t.tick == 0 && t.phase == .pFinish) = true := by decide

/-- L2-9a. -/
theorem test_count_not_due :
    nextWith (exec .count { atPhase .pCount with iter := 9998, tick := 42 })
      (fun t => t.iter == 9999 && t.tick == 42 && t.phase == .pRamp) = true := by decide

/-- L2-9d. -/
theorem test_finish_dropped :
    nextWith (exec (.finish false 0#32) { atPhase .pFinish with tsmp := 5, dir := .ccw, dcf := true, loopc := 10000 })
      (fun t => t.tlmOut == [] && !t.dcf && t.obst == 10000 && t.phase == .pRamp) = true := by decide

/-- L2-9g: the time base went backwards. -/
theorem test_finish_external_wraps :
    nextWith (exec (.finish true 0x60#32) { external .pFinish with obst := 100 })
      (fun t => t.obst == 96 && t.tlmOut == [⟨0, 0xFFFFFFFC, .unknown, false⟩]) = true := by decide

/-- R84 at the defaults: chg, dir, dur, ticks from the top of 67 bits. -/
theorem test_pack_record :
    (packRecord Config.standard ⟨2, 10000, .ccw, true⟩).toNat = 7 * 2 ^ 64 + 10000 * 2 ^ 32 + 2 := by decide

/-- R206: true and complement of one channel change, two events. -/
theorem test_edge_events : edgeEvents ⟨false, false, true, true⟩ ⟨true, false, false, true⟩ = 2 := by decide

/-! ### Witnesses: for each statement with hypotheses, what meets them, clause by clause, at the ends of the ranges -/

theorem test_wit_DecodeOfEncode :
    (Instr.finish true 0x0000FFFF#32).wellFormed 16 = true ∧ (Instr.finish false 1#32).wellFormed 1 = true ∧
    Instr.ramp.wellFormed 32 = true := by decide

theorem test_wit_EncodeOfDecode :
    decode 16 [.header 0x7000#16, .operand 0x0000FFFF#32, .header 0x5000#16]
      = .ok (.finish false 0x0000FFFF#32, [.header 0x5000#16]) := by decide

/-- L2-1a, b, c: both ends of the reserved kinds. -/
theorem test_wit_IllegalHeadersRefused_kind :
    configLegal small = true ∧ (0x0FFF#16 >>> 12).toNat = 0 ∧ 8 ≤ (0x8000#16 >>> 12).toNat ∧ 8 ≤ (0xFFFF#16 >>> 12).toNat ∧
    refusedWith (step (withWords sSmall [.header 0x0FFF#16])) (.reservedKind 0x0FFF#16) = true ∧
    refusedWith (step (withWords sSmall [.header 0x8000#16])) (.reservedKind 0x8000#16) = true ∧
    refusedWith (step (withWords sSmall [.header 0xFFFF#16])) (.reservedKind 0xFFFF#16) = true := by decide

/-- L2-1f, i, p, v: the lowest or the highest reserved bit of each kind. -/
theorem test_wit_IllegalHeadersRefused_bits :
    0x1004#16 &&& 0x0FFC#16 ≠ 0#16 ∧ 0x2010#16 &&& 0x0FF0#16 ≠ 0#16 ∧ 0x3001#16 &&& 0x0FFF#16 ≠ 0#16 ∧
    0x6800#16 &&& 0x0FFF#16 ≠ 0#16 ∧ 0x7002#16 &&& 0x0FFE#16 ≠ 0#16 ∧
    refusedWith (step (withWords sSmall [.header 0x1004#16])) (.reservedBits 0x1004#16) = true ∧
    refusedWith (step (withWords sSmall [.header 0x2010#16])) (.reservedBits 0x2010#16) = true ∧
    refusedWith (step (withWords sSmall [.header 0x3001#16])) (.reservedBits 0x3001#16) = true ∧
    refusedWith (step (withWords sSmall [.header 0x6800#16])) (.reservedBits 0x6800#16) = true ∧
    refusedWith (step (withWords sSmall [.header 0x7002#16, .operand 0#32])) (.reservedBits 0x7002#16) = true := by decide

/-- L2-1u: the first operand value that TIME_W = 16 cannot hold, and the last it can. -/
theorem test_wit_IllegalHeadersRefused_operand :
    2 ^ small.timeW ≤ (0x00010000#32).toNat ∧
    refusedWith (step (withWords sSmall [.header 0x7000#16, .operand 0x00010000#32])) (.reservedBits 0x7000#16) = true ∧
    refusedWith (step (withWords sSmall [.header 0x7000#16, .operand 0x0000FFFF#32]))
      (.disabled (.finish false 0x0000FFFF#32) .pRamp) = true := by decide

theorem test_wit_KindFixesLength :
    decode 32 [.header 0x4000#16, .operand 1#32] = .ok (.seta 1#32, []) ∧
    decode 32 [.header 0x1000#16, .operand 1#32] = .ok (.reset false false, [.operand 1#32]) ∧
    refusedWith (step (withWords sSmall [.header 0x3000#16])) (.truncated 0x3000#16) = true ∧
    refusedWith (step (withWords sSmall [.header 0x7001#16])) (.truncated 0x7001#16) = true := by decide

theorem test_wit_StepRunsTheDecodedOperation :
    configLegal small = true ∧ decode small.timeW [.header 0x5000#16, .header 0x6000#16] = .ok (.ramp, [.header 0x6000#16]) ∧
    nextWith (step (withWords sSmall [.header 0x5000#16, .header 0x6000#16]))
      (fun t => t.phase == .pCount && t.sched == [.header 0x6000#16]) = true := by decide

/-- Values just outside each range of R5. -/
theorem test_wit_IllegalConfigurationRefused :
    configLegal { small with interval := 0 } = false ∧ configLegal { small with interval := 16 } = false ∧
    configLegal { small with interval := 15 } = true ∧ configLegal { small with dt := 0x00000000#32 } = false ∧
    configLegal { small with dt := 0x80000001#32 } = false ∧ configLegal { small with dt := 0x00000001#32 } = true ∧
    configLegal { small with dt := 0x7F800000#32 } = false ∧ configLegal { small with dt := 0x7FC00000#32 } = false ∧
    configLegal { small with tickW := 0 } = false ∧ configLegal { small with tickW := 33 } = false ∧
    configLegal { small with errW := 0 } = false ∧ configLegal { small with errW := 33 } = false ∧
    configLegal { small with timeW := 0 } = false ∧ configLegal { small with timeW := 33 } = false ∧
    refusedWith (step { State.reset with cfg := { small with interval := 0 } }) .badConfig = true := by decide

theorem test_wit_IllegalConfigurationRefused_hypothesis :
    ¬(1 ≤ (0 : Nat) ∧ 0 < 2 ^ small.iterW ∧ f32IsFinite small.dt = true ∧ f32Gt small.dt 0#32 = true ∧
      1 ≤ small.tickW ∧ small.tickW ≤ 32 ∧ 1 ≤ small.errW ∧ small.errW ≤ 32 ∧ 1 ≤ small.timeW ∧ small.timeW ≤ 32) := by decide

theorem test_wit_ResetOperation :
    sOff.started = false ∧ (atPhase .pFinish).fault = .none ∧ sFault.started = true ∧ sFault.fault ≠ .none := by decide

theorem test_wit_ResetForgetsEveryRegister :
    sOff.started = false ∧ (atPhase .pFinish).fault = .none ∧ sOff.cfg = (atPhase .pFinish).cfg ∧
    sOff.tlmOut = (atPhase .pFinish).tlmOut ∧ sOff.sched = (atPhase .pFinish).sched ∧ sOff ≠ atPhase .pFinish := by decide

theorem test_wit_ResetStateIsAfterPowerOn :
    sOff.started = false ∧ sOff.cfg = Config.standard ∧ sOff.tlmOut = [] ∧ sOff.sched = [] ∧
    nextWith (exec (.reset false false) sOff) (fun t => t == State.reset) = true := by decide

/-- L2-2a, e. -/
theorem test_wit_OnlyResetBeforeTheFirstReset :
    sOff.started = false ∧ refusedWith (exec .ramp sOff) .beforeReset = true ∧
    nextWith (exec (.reset false true) sOff) (fun t => t.prev == 0b01#2 && t.started) = true := by decide

theorem test_wit_AfterResetRampIsNext :
    exec (.reset true false) sOff = .next { State.reset with prev := 0b10#2 } := rfl

/-- R234 item 3: TA is written, TV is not. -/
theorem test_wit_VelocityZeroUntilTargetWritten :
    configLegal sOff.cfg = true ∧ exec (.reset false false) sOff = .next State.reset ∧
    ([.seta 0x41200000#32, .ramp, .count] : List Instr).all (fun i => !isSetv i) = true ∧
    nextWith (runOps [.seta 0x41200000#32, .ramp, .count] State.reset) (fun t => t.iter == 1 && t.cv == 0#32) = true :=
  ⟨by decide, rfl, by decide, by decide +kernel⟩

theorem test_wit_TransitionTable : Running State.reset ∧ State.reset.cfg.complementCheck = false := by decide

/-- L2-6b, f and the four classes. -/
theorem test_wit_EdgeOperation :
    Running sSmall ∧ sSmall.cfg.complementCheck = true ∧ sOff.started = false ∧ sFault.started = true ∧ sFault.fault ≠ .none ∧
    qtrans sSmall.prev (phaseCode false false) = .none ∧ qtrans sSmall.prev (phaseCode true true) = .invalid ∧
    qtrans sSmall.prev (phaseCode false true) = .fwd ∧ qtrans sSmall.prev (phaseCode true false) = .rev := by decide

/-- DirectionOfLastValidTransition, LatchRecordsReversals and TickCountsValidTransitions. L1-2a: FWD, FWD, REV, REV, with the
count wrapping. -/
theorem test_wit_runs_of_edges :
    ([.edge false true true false, .edge true true false false, .edge false true true false, .edge false false true true] :
      List Instr).all (fun i => !isReset i && !isCount i && !isFinish i) = true ∧
    nextWith (runOps [.edge false true true false, .edge true true false false, .edge false true true false,
        .edge false false true true] { sSmall with tick := 14 })
      (fun t => t.dir == .ccw && t.dcf && t.tick == 2) = true ∧ 14 < 2 ^ small.tickW := by decide

/-- The same samples with other operations between, from a state that differs outside the decoder. -/
theorem test_wit_DecoderIsAFunctionOfTheSamples :
    samplesOf [.edge false true true false, .setv 5#32, .ramp] = samplesOf [.seta 0#32, .edge false true true false] ∧
    nextWith (runOps [.edge false true true false, .setv 5#32, .ramp] sSmall) (fun t => t.prev == 0b01#2) = true ∧
    nextWith (runOps [.seta 0#32, .edge false true true false] { sSmall with phase := .pFinish, iter := 2, tv := 9#32 })
      (fun t => t.prev == 0b01#2) = true := by decide

theorem test_wit_NeverGuessADirection :
    Running sSmall ∧ qtrans sSmall.prev (phaseCode true true) = .invalid ∧ qtrans sSmall.prev (phaseCode false false) = .none ∧
    sSmall.cfg.complementCheck = true := by decide

/-- Two levels that differ, then none, then all four. -/
theorem test_wit_RepeatedSamplesChangeNothing :
    State.reset.cfg.complementCheck = false ∧ Running State.reset ∧
    serveEdge (changeLevels ⟨true, false, false, true⟩ ⟨⟨false, false, true, true⟩, 0⟩)
      = some (.edge true false false true, ⟨⟨true, false, false, true⟩, 1⟩) ∧
    edgesOfLevels ⟨true, false, false, true⟩ [⟨true, false, false, true⟩] = [] ∧
    (changeLevels ⟨true, true, false, false⟩ ⟨⟨false, false, true, true⟩, 0⟩).pending = 4 := by decide

/-- L2-7r to v, and both zeros. -/
theorem test_wit_RampInputPrecondition :
    rampInputsOk 0x41200000#32 0x00000000#32 = true ∧ rampInputsOk 0x41200000#32 0x80000000#32 = true ∧
    rampInputsOk 0x41200000#32 0x80000001#32 = false ∧ rampInputsOk 0x41200000#32 0x7FC00000#32 = false ∧
    rampInputsOk 0x41200000#32 0x7F800000#32 = false ∧ rampInputsOk 0x7FC00000#32 0x3F800000#32 = false ∧
    rampInputsOk 0xFF800000#32 0x3F800000#32 = false ∧ rampInputsOk 0xFF7FFFFF#32 0x7F7FFFFF#32 = true := by decide

/-- L1-5b, L2-2h, L2-2i. -/
theorem test_wit_RampOperation :
    Running (rampAt 0x41F00000#32 0x42C80000#32 0x41200000#32) ∧
    rampInputsOk 0x42C80000#32 0x41200000#32 = true ∧ rampInputsOk 0#32 0x7FC00000#32 = false ∧
    refusedWith (exec .ramp { atPhase .pCount with ta := 0x7FC00000#32 }) (.disabled .ramp .pCount) = true ∧
    sOff.started = false ∧ sFault.fault ≠ .none := by decide

theorem test_wit_PreconditionFaultIsFinal :
    Running (rampAt 0#32 0#32 0xBF800000#32) ∧ (rampAt 0#32 0#32 0xBF800000#32).phase = .pRamp ∧
    rampInputsOk 0#32 0xBF800000#32 = false := by decide

theorem test_wit_SetvOperation : Running (atPhase .pFinish) ∧ sOff.started = false ∧ sFault.fault ≠ .none := by decide

theorem test_wit_SetaOperation : Running (atPhase .pCount) ∧ sOff.started = false ∧ sFault.started = true := by decide

/-- L2-7b and L2-7p, and a run of two iterations. -/
theorem test_wit_NoOvershoot :
    configLegal State.reset.cfg = true ∧ Running (rampAt 0x41F00000#32 0x42C80000#32 0x41200000#32) ∧
    rampInputsOk 0x42C80000#32 0x41200000#32 = true ∧ f32IsFinite 0x41F00000#32 = true ∧
    f32IsFinite 0x42C80000#32 = true ∧
    nextWith (runOps [.ramp, .count, .ramp] (rampAt 0x41F00000#32 0x42C80000#32 0x41200000#32))
      (fun t => t.cv == 0x42480000#32) = true := by decide +kernel

/-- L2-7g and the sign changes L2-7k, l, m. -/
theorem test_wit_FrozenRamp :
    configLegal State.reset.cfg = true ∧ rampInputsOk 0x42C80000#32 0x00000000#32 = true ∧
    f32Mag (f32Mul 0x00000000#32 State.reset.cfg.dt) = 0 ∧ f32Value 0x42C80000#32 ≠ f32Value 0x41F00000#32 ∧
    f32Value 0xC0A00000#32 ≠ f32Value 0x80000000#32 ∧ f32Mag (0x80000000#32) = 0 ∧
    nextWith (exec .ramp (rampAt 0x80000000#32 0xC0A00000#32 0x80000000#32)) (fun t => t.cv == 0#32) = true ∧
    nextWith (exec .ramp (rampAt 0x80000000#32 0xC0A00000#32 0#32)) (fun t => t.cv == 0x80000000#32) = true ∧
    nextWith (runOps [.ramp, .count, .ramp] (rampAt 0x41F00000#32 0x42C80000#32 0#32))
      (fun t => t.cv == 0x41F00000#32) = true := by decide +kernel

/-- L2-7p. -/
theorem test_wit_TargetHeldAndBoundFails :
    Running (rampAt 0x4B800000#32 0x4C000000#32 0x3F800000#32) ∧ State.reset.cfg.dt = 0x3F800000#32 ∧
    configLegal State.reset.cfg = true ∧ rampInputsOk 0x4C000000#32 0x3F800000#32 = true ∧
    nextWith (exec .ramp (rampAt 0x4B800000#32 0x4C000000#32 0x3F800000#32)) (fun t => t.cv == 0x4B800000#32) = true := by
  decide +kernel

theorem test_wit_RampIgnoresSensedDirection :
    exec .ramp State.reset = .next (atPhase .pCount) := rfl

/-- L1-5e, L2-9a, L2-2f. -/
theorem test_wit_CountOperation :
    Running (atPhase .pCount) ∧ 9999 + 1 = Config.standard.interval ∧ 9998 + 1 ≠ Config.standard.interval ∧
    refusedWith (exec .count State.reset) (.disabled .count .pRamp) = true ∧ sOff.started = false := by decide

/-- L1-5f, L2-2g. -/
theorem test_wit_FinishOperation :
    Running (atPhase .pFinish) ∧ (atPhase .pFinish).cfg.timeSource = .iter ∧ (external .pFinish).cfg.timeSource = .external ∧
    refusedWith (exec (.finish true 0#32) State.reset) (.disabled (.finish true 0#32) .pRamp) = true ∧
    nextWith (exec (.finish true 0#32) { atPhase .pFinish with tsmp := 2, dir := .cw, loopc := 10000 })
      (fun t => t.tlmOut == [⟨2, 10000, .cw, false⟩] && t.obst == 10000 && t.iter == 0) = true := by decide

theorem test_wit_DroppedWindowRestarts :
    Running (external .pFinish) ∧ (external .pFinish).phase = .pFinish ∧ (external .pFinish).dcf = false := by decide

/-- INTERVAL = 2: two iterations, one report; and one iteration, none. -/
theorem test_wit_ReportCount :
    1 ≤ small.interval ∧ exec (.reset false false) sSmall = .next sSmall ∧
    ([.ramp, .count, .ramp, .count, .finish true 0#32] : List Instr).all (fun i => !isReset i) = true ∧
    ([.ramp, .count, .ramp, .count, .finish true 0#32] : List Instr).all (fun i => !isFinish i || isReadyFinish i) = true ∧
    nextWith (runOps ([.ramp, .count, .ramp, .count] ++ [.finish true 0#32]) sSmall) (fun t => t.tlmOut.length == 1) = true ∧
    nextWith (runOps [.ramp, .count] sSmall) (fun t => t.tlmOut.length == 0) = true :=
  ⟨by decide, rfl, by decide, by decide, by decide, by decide⟩

theorem test_wit_EdgesBetweenCountAndFinish :
    Running { sSmall with phase := .pCount, iter := 1 } ∧ 1 + 1 = small.interval := by decide

/-- Two ticks, one in the record of the window, one in TICK. -/
theorem test_wit_TicksConserved :
    exec (.reset false false) sSmall = .next sSmall ∧
    nextWith (runOps [.edge false true true false, .ramp, .count, .ramp, .count, .edge true true false false,
        .finish true 0#32] sSmall) (fun t => t.tlmOut == [⟨1, 2, .cw, false⟩] && t.tick == 1) = true :=
  ⟨rfl, by decide⟩

theorem test_wit_WindowsLastInterval :
    1 ≤ small.interval ∧ small.timeSource = .iter ∧ exec (.reset false false) sSmall = .next sSmall ∧
    nextWith (runOps [.ramp, .count, .ramp, .count, .finish true 0#32] sSmall) (fun t => t.tlmOut == [⟨0, 2, .unknown, false⟩])
      = true :=
  ⟨by decide, rfl, rfl, by decide⟩

/-- L2-9f and L2-9g, from times above and below. -/
theorem test_wit_ExternalDuration :
    Running (external .pFinish) ∧ (external .pFinish).cfg.timeSource = .external ∧ (external .pFinish).obst = 0 ∧
    nextWith (exec (.finish true 0x10#32) { external .pFinish with obst := 0xFFFFFFF0 })
      (fun t => t.tlmOut == [⟨0, 0x20, .unknown, false⟩]) = true := by decide

theorem test_wit_ReporterNeverBlocks :
    Running (atPhase .pCount) ∧ Running (atPhase .pFinish) ∧ exec .ramp State.reset = .next (atPhase .pCount) :=
  ⟨by decide, by decide, rfl⟩

/-- L2-2a, h, i, k, m: each check before the ones after it. -/
theorem test_wit_OrderOfChecks :
    refusedWith (step { sOff with cfg := { small with tickW := 0 }, sched := [.header 0x8000#16] }) .badConfig = true ∧
    refusedWith (step (withWords sFault [.header 0x8000#16])) (.reservedKind 0x8000#16) = true ∧
    refusedWith (step (withWords sOff [.header 0x5000#16])) .beforeReset = true ∧
    faultWith (step (withWords sFault [.header 0x6000#16])) (.noStep sFault) = true ∧
    refusedWith (step (withWords { atPhase .pCount with ta := 0x7FC00000#32 } [.header 0x5000#16])) (.disabled .ramp .pCount)
      = true ∧
    faultWith (step (withWords (rampAt 0#32 0#32 0x7FC00000#32) [.header 0x5000#16]))
      (.precond { rampAt 0#32 0#32 0x7FC00000#32 with fault := .precond }) = true ∧
    nextWith (step (withWords State.reset [.header 0x5000#16])) (fun t => t.phase == .pCount) = true := by decide

theorem test_wit_MainLoopInProgramOrder :
    phaseOf .ramp = some .pRamp ∧ Running (atPhase .pFinish) ∧ (atPhase .pFinish).phase ≠ .pRamp ∧
    nextWith (exec .ramp State.reset) (fun _ => true) = true ∧ nextWith (exec .count (atPhase .pCount)) (fun _ => true) = true ∧
    nextWith (exec (.finish true 0#32) (atPhase .pFinish)) (fun _ => true) = true ∧
    phaseOf (.setv 0#32) = none ∧ isReset (.setv 0#32) = false := by decide

/-- L2-8d: only the last SETV counts. -/
theorem test_wit_HostWritesAnywhereLastOneCounts :
    Running State.reset ∧
    nextWith (runOps [.setv 0x41A00000#32, .seta 0x41200000#32, .ramp] State.reset) (fun t => t.tv == 0x41A00000#32) = true ∧
    nextWith (runOps [.seta 0x41200000#32, .setv 0x41A00000#32, .ramp] State.reset) (fun t => t.ta == 0x41200000#32) = true := by
  decide

/-- An endless run with a window a report: RAMP, COUNT, FINISH with the transport never ready, INTERVAL = 1, TIME_W = 1. -/
def loopCfg : Config := { Config.standard with interval := 1, iterW := 1, timeW := 1, timeSource := .external }

def loopOp : Nat → Instr
  | 0 => .ramp
  | 1 => .count
  | 2 => .finish false 0#32
  | 3 => .ramp
  | 4 => .count
  | _ => .finish false 0#32

def loopState : Nat → State
  | 0 => { State.reset with cfg := loopCfg }
  | 1 => { State.reset with cfg := loopCfg, phase := .pCount }
  | 2 => { State.reset with cfg := loopCfg, phase := .pFinish, iter := 1, loopc := 1 }
  | 3 => { State.reset with cfg := loopCfg, loopc := 1 }
  | 4 => { State.reset with cfg := loopCfg, phase := .pCount, loopc := 1 }
  | _ => { State.reset with cfg := loopCfg, phase := .pFinish, iter := 1 }

theorem test_wit_FairRunsKeepReporting :
    InfiniteRun (fun n => loopOp (n % 6)) (fun n => loopState (n % 6)) ∧ WeaklyFair (fun n => loopOp (n % 6)) ∧
    (∀ n, isReset (loopOp (n % 6)) = false) ∧ Inv (loopState 0) := by
  have cases6 : ∀ n, n % 6 = 0 ∨ n % 6 = 1 ∨ n % 6 = 2 ∨ n % 6 = 3 ∨ n % 6 = 4 ∨ n % 6 = 5 := by omega
  refine ⟨fun n => ?_, fun n => ⟨n, le_rfl, ?_⟩, fun n => ?_, by decide, by simp [loopState, State.reset], fun _ => ⟨rfl, ?_⟩⟩
  · dsimp only
    rw [show (n + 1) % 6 = (n % 6 + 1) % 6 by omega]
    rcases cases6 n with h | h | h | h | h | h <;> rw [h] <;> rfl
  · dsimp only
    rcases cases6 n with h | h | h | h | h | h <;> rw [h] <;> rfl
  · rcases cases6 n with h | h | h | h | h | h <;> rw [h] <;> rfl
  · simp [widthsOk, iterOk, loopState, State.reset, loopCfg, Config.standard]

/-- One next state for each operation. -/
theorem test_wit_EachRegisterHasItsWriters :
    nextWith (exec (.reset true true) sOff) (fun _ => true) = true ∧
    nextWith (exec (.edge true false false true) sSmall) (fun t => t.tick == 1) = true ∧
    nextWith (exec (.setv 1#32) sSmall) (fun _ => true) = true ∧ nextWith (exec (.seta 1#32) sSmall) (fun _ => true) = true ∧
    nextWith (exec .ramp sSmall) (fun _ => true) = true ∧
    nextWith (exec .count { sSmall with phase := .pCount }) (fun _ => true) = true ∧
    nextWith (exec (.finish true 0#32) { sSmall with phase := .pFinish }) (fun _ => true) = true := by decide

theorem test_wit_KnownDirectionStaysKnown :
    nextWith (exec (.edge true false false true) { State.reset with dir := .cw }) (fun t => t.dir == .ccw) = true ∧
    nextWith (runOps [.edge true true false false, .ramp] { State.reset with dir := .cw }) (fun t => t.dir == .cw) = true := by
  decide

theorem test_wit_LatchHoldsUntilAcknowledged :
    nextWith (exec (.edge true false false true) { State.reset with dir := .cw }) (fun t => t.dcf) = true ∧
    nextWith (exec (.finish false 0#32) { atPhase .pFinish with dcf := true }) (fun t => !t.dcf) = true := by decide

theorem test_wit_IterStaysWithinTheWindow :
    nextWith (exec .count (atPhase .pCount)) (fun t => t.iter == 1) = true ∧
    nextWith (exec (.finish true 0#32) { atPhase .pFinish with iter := 10000 }) (fun t => t.iter == 0) = true ∧
    1 ≤ small.interval ∧ exec (.reset false false) sSmall = .next sSmall ∧
    nextWith (runOps [.ramp, .count, .ramp, .count] sSmall) (fun t => t.phase == .pFinish && t.iter == 2) = true :=
  ⟨by decide, by decide, by decide, rfl, by decide⟩

/-- StepKeepsInv, StepKeepsVelocityFinite and StepKeepsTheWindowClock: a step from a started state that meets the invariants,
to another. -/
theorem test_wit_invariants :
    Inv sSmall ∧ CvFinite sSmall ∧ WindowClock sSmall ∧ RecordsLastOneWindow sSmall ∧
    nextWith (step (withWords sSmall [.header 0x5000#16])) (fun t => t.phase == .pCount) = true := by
  refine ⟨⟨by decide, by simp [sSmall, State.reset], fun _ => ⟨rfl, ?_⟩⟩, fun _ => by decide, fun _ _ => by decide,
    fun _ => by simp [sSmall, State.reset], by decide⟩
  simp [widthsOk, iterOk, sSmall, small, State.reset, Config.standard]

/-- Finite operands whose sum is a tie, overflows, is just below and at the half unit past the largest finite number, and is
an exact zero of each sign. -/
theorem test_wit_SumIsCorrectlyRounded :
    f32IsFinite 0x4B800000#32 = true ∧ f32IsFinite 0x3F800000#32 = true ∧ f32Add 0x4B800000#32 0x3F800000#32 = 0x4B800000#32 ∧
    f32IsFinite 0x7F7FFFFF#32 = true ∧ f32IsFinite (f32Add 0x7F7FFFFF#32 0x7F7FFFFF#32) = false ∧
    f32Add 0x7F7FFFFF#32 0x72FFFFFF#32 = 0x7F7FFFFF#32 ∧ f32Add 0xFF7FFFFF#32 0xF3000000#32 = 0xFF800000#32 ∧
    (2 ^ 25 - 1) * 2 ^ 253 = 2 * |f32Value 0xFF7FFFFF#32 + f32Value 0xF3000000#32| ∧
    f32Value 0x80000000#32 + f32Value 0x80000000#32 = 0 ∧ f32Value 0x3F800000#32 + f32Value 0xBF800000#32 = 0 := by
  decide +kernel

/-- A finite product, one that overflows, and one of each sign at the half unit past the largest finite number. -/
theorem test_wit_ProductIsCorrectlyRounded :
    f32IsFinite 0x3DCCCCCD#32 = true ∧ f32IsFinite (f32Mul 0x3DCCCCCD#32 0x3DCCCCCD#32) = true ∧
    f32IsFinite (f32Mul 0x7F7FFFFF#32 0x40000000#32) = false ∧
    (2 ^ 25 - 1) * 2 ^ 253 * 2 ^ 149 = 2 * |f32Value 0x7D042108#32 * f32Value 0x41F80000#32| ∧
    f32Mul 0x7D042108#32 0x41F80000#32 = 0x7F800000#32 ∧ f32Mul 0xFD042108#32 0x41F80000#32 = 0xFF800000#32 := by
  decide +kernel

theorem test_wit_DifferenceAndComparisons :
    f32IsFinite 0x00000000#32 = true ∧ f32IsFinite 0x80000000#32 = true ∧ f32IsNaN 0x7F800001#32 = true ∧
    f32IsNaN 0x7F800000#32 = false ∧ f32IsNaN 0xFF800000#32 = false ∧ f32IsNaN 0xFF7FFFFF#32 = false := by decide

theorem test_wit_OutputPorts :
    15 < 2 ^ small.errW ∧ isReadyFinish (.finish true 0#32) = true ∧ isReadyFinish (.finish false 0#32) = false ∧
    nextWith (exec (.finish true 0#32) (atPhase .pFinish)) (fun t => tlmStrobe (atPhase .pFinish) t == some ⟨0, 0, .unknown, false⟩)
      = true ∧
    nextWith (exec (.finish false 0#32) (atPhase .pFinish)) (fun t => tlmStrobe (atPhase .pFinish) t == none) = true := by
  decide

theorem test_wit_RecordPacking : 15 < 2 ^ small.tickW ∧ 65535 < 2 ^ small.timeW := by decide

theorem test_wit_PseudoOperations :
    Running sSmall ∧ sSmall.phase = .pRamp ∧ rampInputsOk sSmall.tv sSmall.ta = true ∧
    expand small.interval sSmall.iter [.step false true, .run 3, .iter false 5#32]
      = [.edge false true true false, .ramp, .count, .ramp, .count, .finish true 0#32, .ramp, .count, .ramp, .count,
         .finish false 5#32] := by decide

theorem test_wit_ScheduleRunsItsOperations :
    configLegal small = true ∧
    ([.setv 0x3F800000#32, .ramp, .count] : List Instr).all (fun i => i.wellFormed small.timeW) = true ∧
    nextWith (runOps [.setv 0x3F800000#32, .ramp, .count] sSmall) (fun t => t.iter == 1) = true := by decide

end Sys2Proof.Tests
end

section
/-! PROOFS. The scope (00_scope.md): the legal ranges of R5 as a conjunction, and the refusal of a configuration outside them
(R6). -/

namespace Sys2Proof.Proofs

open Sys2Proof.Machine

/-- The check of R6 is the ranges of R5. -/
theorem configLegal_iff (c : Config) :
    configLegal c = true ↔
      1 ≤ c.interval ∧ c.interval < 2 ^ c.iterW ∧ f32IsFinite c.dt = true ∧ f32Gt c.dt 0#32 = true ∧
        1 ≤ c.tickW ∧ c.tickW ≤ 32 ∧ 1 ≤ c.errW ∧ c.errW ≤ 32 ∧ 1 ≤ c.timeW ∧ c.timeW ≤ 32 := by
  simp only [configLegal, Bool.and_eq_true, decide_eq_true_eq, and_assoc]

/-- R205 check 1: the configuration is looked at before anything is decoded. -/
theorem step_of_configLegal_eq_false {s : State} (h : configLegal s.cfg = false) : step s = .refused .badConfig := by
  have hfetch : fetch s = .error .badConfig := by simp [fetch, h]
  rw [step, hfetch]

/-- Settles O7: a configuration outside R5's ranges fails R6's check, which every step makes first. -/
theorem illegalConfigurationRefused : Obligations.IllegalConfigurationRefused := by
  intro s hrange
  rw [← configLegal_iff, Bool.not_eq_true] at hrange
  exact step_of_configLegal_eq_false hrange

end Sys2Proof.Proofs
end

section
/-! PROOFS. The registers (10_state.md): the writer column of R21 as a frame of every operation (R39), the acknowledgement of
DCF (R24), and the output ports with the record strobe (R36). -/

namespace Sys2Proof.Proofs

open Sys2Proof.Machine Sys2Proof.Safety Sys2Proof.Laws

/-! ### What EDGE and COUNT do to the registers with two writers -/

/-- R100: EDGE leaves TICK or increments it. -/
theorem decodeEdge_tick_cases (a b an bn : Bool) (s : State) :
    (decodeEdge a b an bn s).tick = s.tick ∨ (decodeEdge a b an bn s).tick = wrap s.cfg.tickW (s.tick + 1) := by
  rcases decodeEdge_history a b an bn s with ⟨-, h⟩ | ⟨-, -, ⟨-, -, -, h⟩ | ⟨d, -, -, -, -, h⟩⟩
  · exact .inl (by rw [h, bumpErr_tick])
  · exact .inl h
  · exact .inr h

/-- R160: COUNT leaves TICK or zeroes it. -/
theorem countState_tick_cases (s : State) : (countState s).tick = s.tick ∨ (countState s).tick = 0 := by
  rcases countState_cases s with ⟨-, -, -, h⟩ | ⟨-, -, -, h⟩
  · exact .inr h
  · exact .inl h

/-- EDGE leaves DIR or gives it a known direction. -/
theorem decodeEdge_dir_cases (a b an bn : Bool) (s : State) :
    (decodeEdge a b an bn s).dir = s.dir ∨ (decodeEdge a b an bn s).dir ≠ .unknown := by
  rcases decodeEdge_history a b an bn s with ⟨-, h⟩ | ⟨-, -, ⟨-, h, -⟩ | ⟨d, hd, -, h, -⟩⟩
  · exact .inl (by rw [h, bumpErr_dir])
  · exact .inl h
  · right
    rw [h]
    rintro rfl
    simp at hd

@[simp] theorem dcfAfter_same (d : Direction) (dcf : Bool) : dcfAfter d d dcf = dcf := by simp [dcfAfter]

theorem dcfAfter_eq_true_iff {old d : Direction} {dcf : Bool} :
    dcfAfter old d dcf = true ↔ dcf = true ∨ (d ≠ old ∧ old ≠ .unknown) := by
  unfold dcfAfter
  split
  · rename_i h; simp [h]
  · rename_i h; simp [h]

/-- The one rule for DCF at an EDGE: it follows from the old and the new DIR, whatever the class of the transition. -/
theorem decodeEdge_dcf (a b an bn : Bool) (s : State) :
    (decodeEdge a b an bn s).dcf = dcfAfter s.dir (decodeEdge a b an bn s).dir s.dcf := by
  rcases decodeEdge_history a b an bn s with ⟨-, h⟩ | ⟨-, -, ⟨-, hdir, hdcf, -⟩ | ⟨d, -, -, hdir, hdcf, -⟩⟩
  · simp [h]
  · rw [hdcf, hdir, dcfAfter_same]
  · rw [hdcf, hdir]

/-- R24: EDGE leaves DCF or sets it. -/
theorem decodeEdge_dcf_cases (a b an bn : Bool) (s : State) :
    (decodeEdge a b an bn s).dcf = s.dcf ∨ (decodeEdge a b an bn s).dcf = true := by
  rw [decodeEdge_dcf, dcfAfter]
  split
  · exact .inr rfl
  · exact .inl rfl

/-- A change of direction between two known directions is a flip between +1 and -1. -/
theorem known_change_iff_flip {old d : Direction} (h : d = old ∨ d ≠ .unknown) :
    d ≠ old ∧ old ≠ .unknown ↔ (old = .cw ∧ d = .ccw) ∨ (old = .ccw ∧ d = .cw) := by
  cases old <;> cases d <;> simp at h ⊢

/-! ### The writers of each register -/

/-- Settles O46, operation by operation: the predicates named in a case are those of the operation's own writes. -/
theorem eachRegisterHasItsWriters : Obligations.EachRegisterHasItsWriters := by
  intro i s t h
  cases i with
  | reset a b =>
    obtain ⟨-, rfl⟩ := execReset_next.1 h
    simp [isReset]
  | edge a b an bn =>
    obtain ⟨⟨hstarted, hfault⟩, rfl⟩ := execEdge_next.1 h
    have htick := decodeEdge_tick_cases a b an bn s
    have hdcf := decodeEdge_dcf_cases a b an bn s
    rw [wrap] at htick
    simp [isEdge, isCount, isFinish, hstarted, hfault, htick, hdcf]
  | setv v =>
    obtain ⟨⟨hstarted, hfault⟩, rfl⟩ := execSetv_next.1 h
    simp [isSetv, isFinish, hstarted, hfault]
  | seta v =>
    obtain ⟨⟨hstarted, hfault⟩, rfl⟩ := execSeta_next.1 h
    simp [isSeta, isFinish, hstarted, hfault]
  | ramp =>
    obtain ⟨⟨hstarted, hfault⟩, -, -, rfl⟩ := execRamp_next.1 h
    simp [agentOf, isFinish, hstarted, hfault]
  | count =>
    obtain ⟨⟨hstarted, hfault⟩, -, rfl⟩ := execCount_next.1 h
    have htick := countState_tick_cases s
    simp [agentOf, isEdge, isCount, isFinish, hstarted, hfault, htick]
  | finish tx o =>
    obtain ⟨⟨hstarted, hfault⟩, -, rfl⟩ := execFinish_next.1 h
    simp [agentOf, isEdge, isFinish, hstarted, hfault]

/-! ### The acknowledgement of DCF -/

/-- R24: an operation that is neither FINISH nor RESET keeps a set DCF: EDGE writes no 0 to it, the others do not write it. -/
theorem exec_keeps_set_dcf {i : Instr} {s t : State} (h : exec i s = .next t) (hf : isFinish i = false)
    (hr : isReset i = false) (hset : s.dcf = true) : t.dcf = true := by
  obtain ⟨-, -, -, -, -, hframe⟩ := eachRegisterHasItsWriters i s t h
  obtain ⟨-, -, -, -, -, -, -, -, -, hother, hedge, -⟩ := hframe hr
  cases he : isEdge i with
  | false => rw [hother he hf, hset]
  | true =>
    obtain ⟨-, hsame | htrue⟩ := hedge he
    · rw [hsame, hset]
    · exact htrue

/-- Settles O48: DCF after an EDGE is `dcfAfter` of the two directions, and every other operation but FINISH and RESET keeps
it. -/
theorem latchHoldsUntilAcknowledged : Obligations.LatchHoldsUntilAcknowledged := by
  refine ⟨fun a b an bn s t h => ?_, fun i s t h hset hclear => ?_, fun tx o s t h => ?_⟩
  · obtain ⟨-, rfl⟩ := execEdge_next.1 h
    rw [decodeEdge_dcf, dcfAfter_eq_true_iff, known_change_iff_flip (decodeEdge_dir_cases a b an bn s)]
  · by_contra hneither
    rw [not_or, Bool.not_eq_true, Bool.not_eq_true] at hneither
    have hkept := exec_keeps_set_dcf h hneither.1 hneither.2 hset
    simp [hkept] at hclear
  · obtain ⟨-, -, rfl⟩ := execFinish_next.1 h
    exact finishState_dcf tx o s

/-! ### The output ports -/

/-- The hand-off is the first record that a step appends. -/
theorem tlmStrobe_of_append {s t : State} {rs : List Record} (h : t.tlmOut = s.tlmOut ++ rs) :
    tlmStrobe s t = rs.head? := by
  rw [tlmStrobe, h, List.drop_left]

/-- R38: an operation that is no FINISH with tx = 1 leaves TLM_OUT. -/
theorem exec_tlmOut_of_not_readyFinish {i : Instr} {s t : State} (h : exec i s = .next t)
    (hi : isReadyFinish i = false) : t.tlmOut = s.tlmOut := by
  cases hf : isFinish i with
  | false =>
    obtain ⟨-, -, -, -, hframe, -⟩ := eachRegisterHasItsWriters i s t h
    exact hframe hf
  | true =>
    cases i with
    | finish tx o =>
      obtain ⟨-, -, rfl⟩ := execFinish_next.1 h
      have htx : tx = false := hi
      simp [htx]
    | _ => cases hf

/-- R161: a FINISH with tx = 1 appends the record of its window. -/
theorem exec_tlmOut_of_readyFinish {i : Instr} {s t : State} (h : exec i s = .next t)
    (hi : isReadyFinish i = true) : ∃ o, t.tlmOut = s.tlmOut ++ [windowRecord o s] := by
  cases i with
  | finish tx o =>
    obtain ⟨-, -, rfl⟩ := execFinish_next.1 h
    have htx : tx = true := hi
    exact ⟨o, by simp [htx]⟩
  | _ => cases hi

/-- R26: err_out shows an ERR that is within its width. -/
theorem errOut_toNat {s : State} (h : s.err < 2 ^ s.cfg.errW) : (errOut s).toNat = s.err := by
  rw [errOut, BitVec.toNat_ofNat, Nat.mod_eq_of_lt h]

/-- Settles O57: the strobe shows what the operation appends to TLM_OUT. -/
theorem outputPorts : Obligations.OutputPorts := by
  refine ⟨fun s => ⟨rfl, rfl, errOut_toNat⟩, fun i s t h => ⟨fun hi => ?_, fun hi => ?_⟩⟩
  · have hkeep : t.tlmOut = s.tlmOut ++ [] := by rw [exec_tlmOut_of_not_readyFinish h hi, List.append_nil]
    exact tlmStrobe_of_append hkeep
  · obtain ⟨o, happend⟩ := exec_tlmOut_of_readyFinish h hi
    exact ⟨windowRecord o s, tlmStrobe_of_append happend, happend, rfl, rfl, rfl⟩

end Sys2Proof.Proofs
end

section
/-! PROOFS. The order of operations (20_memory.md): the main loop's program order (R57, R34), and host writes that stand until
the next one (R58). -/

namespace Sys2Proof.Proofs

open Sys2Proof.Machine Sys2Proof.Safety Sys2Proof.Laws

/-! ### The main loop -/

/-- R205: a main-loop operation checks STARTED, FAULT and then PHASE, before anything of its own. -/
theorem exec_mainLoop_checks {i : Instr} {p : Phase} (hi : phaseOf i = some p) (s : State) :
    ∃ r, exec i s = whenStarted s (whenPhase i p s r) := by
  cases i with
  | ramp | count | finish => cases hi; exact ⟨_, rfl⟩
  | reset | edge | setv | seta => cases hi

/-- R57: PHASE names every main-loop operation that has a next state. -/
theorem phase_of_exec_mainLoop {i : Instr} {p : Phase} {s t : State} (hi : phaseOf i = some p)
    (h : exec i s = .next t) : s.phase = p := by
  obtain ⟨r, hr⟩ := exec_mainLoop_checks hi s
  rw [hr, whenStarted_next, whenPhase_next] at h
  exact h.2.1

/-- R57: a main-loop operation that PHASE does not name is refused. -/
theorem exec_mainLoop_disabled {i : Instr} {p : Phase} {s : State} (hi : phaseOf i = some p) (hs : Running s)
    (hp : s.phase ≠ p) : exec i s = .refused (.disabled i s.phase) := by
  obtain ⟨r, hr⟩ := exec_mainLoop_checks hi s
  rw [hr, whenStarted_running hs, whenPhase_other hp]

/-- R160: where COUNT sends the main loop. -/
theorem countState_phase (s : State) :
    (countState s).phase = if s.iter + 1 = s.cfg.interval then .pFinish else .pRamp := by
  rcases countState_cases s with ⟨hdue, hphase, -⟩ | ⟨hdue, hphase, -⟩
  · rw [hphase, if_pos hdue]
  · rw [hphase, if_neg hdue]

/-- The operations that need no PHASE are those of the other agents (R53, R57). -/
theorem phaseOf_eq_none_iff {i : Instr} : phaseOf i = none ↔ agentOf i ≠ .mainLoop := by
  cases i <;> simp [phaseOf, agentOf]

/-- Settles O42: the check of PHASE stands before each main-loop operation's own writes, and R39 has PHASE written by the main
loop alone. -/
theorem mainLoopInProgramOrder : Obligations.MainLoopInProgramOrder := by
  refine ⟨fun _ _ _ => exec_mainLoop_disabled, fun s t h => ⟨phase_of_exec_mainLoop rfl h, ?_⟩,
    fun s t h => ⟨phase_of_exec_mainLoop rfl h, ?_⟩, fun tx o s t h => ⟨phase_of_exec_mainLoop rfl h, ?_⟩,
    fun i s t hi hreset h => ?_⟩
  · obtain ⟨-, -, -, rfl⟩ := execRamp_next.1 h
    rfl
  · obtain ⟨-, -, rfl⟩ := execCount_next.1 h
    exact countState_phase s
  · obtain ⟨-, -, rfl⟩ := execFinish_next.1 h
    exact finishState_phase tx o s
  · obtain ⟨-, -, -, -, -, hframe⟩ := eachRegisterHasItsWriters i s t h
    obtain ⟨-, -, -, -, -, -, -, hphase, -⟩ := hframe hreset
    exact hphase (phaseOf_eq_none_iff.1 hi)

/-! ### Host writes -/

/-- What every operation of a kind leaves unchanged, a run of operations of that kind leaves unchanged. -/
theorem runOps_keeps {α : Type} {f : State → α} {kind : Instr → Bool}
    (hstep : ∀ i s t, kind i = true → exec i s = .next t → f t = f s) {ops : List Instr} {s t : State}
    (hops : ops.all kind = true) (h : runOps ops s = .next t) : f t = f s := by
  induction ops generalizing s with
  | nil => rw [next_eq_next.1 h]
  | cons i is ih =>
    rw [List.all_cons, Bool.and_eq_true] at hops
    obtain ⟨u, hu, hrest⟩ := runOps_cons_next.1 h
    rw [ih hops.2 hrest, hstep i s u hops.1 hu]

/-- R21: only SETV and RESET write TV. -/
theorem exec_tv_of_not_setv {i : Instr} {s t : State} (hi : (!isReset i && !isSetv i) = true)
    (h : exec i s = .next t) : t.tv = s.tv := by
  rw [Bool.and_eq_true, Bool.not_eq_true', Bool.not_eq_true'] at hi
  obtain ⟨-, -, -, -, -, hframe⟩ := eachRegisterHasItsWriters i s t h
  obtain ⟨-, htv, -⟩ := hframe hi.1
  exact htv hi.2

/-- R21: only SETA and RESET write TA. -/
theorem exec_ta_of_not_seta {i : Instr} {s t : State} (hi : (!isReset i && !isSeta i) = true)
    (h : exec i s = .next t) : t.ta = s.ta := by
  rw [Bool.and_eq_true, Bool.not_eq_true', Bool.not_eq_true'] at hi
  obtain ⟨-, -, -, -, -, hframe⟩ := eachRegisterHasItsWriters i s t h
  obtain ⟨-, -, hta, -⟩ := hframe hi.1
  exact hta hi.2

/-- Settles O43: a host write asks for a running block alone, and the operations after it keep its register. -/
theorem hostWritesAnywhereLastOneCounts : Obligations.HostWritesAnywhereLastOneCounts := by
  refine ⟨fun v s hs => ⟨⟨_, execSetv_next.2 ⟨hs, rfl⟩⟩, ⟨_, execSeta_next.2 ⟨hs, rfl⟩⟩⟩,
    fun v ops s t hops h => ?_, fun v ops s t hops h => ?_⟩
  · obtain ⟨u, hu, hrest⟩ := runOps_cons_next.1 h
    obtain ⟨-, rfl⟩ := execSetv_next.1 hu
    exact runOps_keeps (f := State.tv) (fun _ _ _ => exec_tv_of_not_setv) hops hrest
  · obtain ⟨u, hu, hrest⟩ := runOps_cons_next.1 h
    obtain ⟨-, rfl⟩ := execSeta_next.1 hu
    exact runOps_keeps (f := State.ta) (fun _ _ _ => exec_ta_of_not_seta) hops hrest

end Sys2Proof.Proofs
end

section
/-! PROOFS. The encoding (30_encoding.md): how KIND is read (R70, R72), the refusals of the decoder (R78), the length of an
operation word (R71), the codes (R80, R82), and the pseudo-operations (R86). -/

namespace Sys2Proof.Proofs

open Sys2Proof.Machine Sys2Proof.Safety Sys2Proof.Laws

/-! ### Reading KIND -/

/-- R70: KIND is the number above bit 11. -/
theorem headerKind_toNat (h : Header) : (headerKind h).toNat = (h >>> 12).toNat := by
  have hlt := h.isLt
  simp only [headerKind, BitVec.extractLsb'_toNat, BitVec.toNat_ushiftRight, Nat.shiftRight_eq_div_pow]
  omega

/-- R78: the reserved codes are 0 and those from 8 up. -/
theorem kindOf_headerKind_eq_none_iff (h : Header) :
    kindOf (headerKind h) = none ↔ (h >>> 12).toNat = 0 ∨ 8 ≤ (h >>> 12).toNat := by
  rw [← headerKind_toNat]
  generalize headerKind h = c
  revert c
  decide

/-- R72: a header is of kind `k` exactly when its KIND is that of the match column. -/
theorem kindOf_headerKind_eq_some_iff (h : Header) (k : Kind) :
    kindOf (headerKind h) = some k ↔ (h >>> 12).toNat = (kindMatch k >>> 12).toNat := by
  rw [← headerKind_toNat]
  generalize headerKind h = c
  revert c
  cases k <;> decide

/-! ### What the decoder answers to a header -/

theorem decode_reservedKind {h : Header} (hk : kindOf (headerKind h) = none) (timeW : Nat) (rest : List SchedWord) :
    decode timeW (.header h :: rest) = .error (.reservedKind h) := by
  simp [decode, decodeHeader, hk]

/-- R73: the reserved ARG bits are looked at before any operand. -/
theorem decode_reservedBits {h : Header} {k : Kind} (hk : kindOf (headerKind h) = some k)
    (hbits : h &&& reservedArg k ≠ 0#16) (timeW : Nat) (rest : List SchedWord) :
    decode timeW (.header h :: rest) = .error (.reservedBits h) := by
  simp [decode, decodeHeader, hk, hbits]

theorem decode_fields {h : Header} {k : Kind} (hk : kindOf (headerKind h) = some k)
    (hbits : h &&& reservedArg k = 0#16) (timeW : Nat) (rest : List SchedWord) :
    decode timeW (.header h :: rest) = decodeFields timeW k h rest := by
  simp [decode, decodeHeader, hk, hbits]

/-- A header that decodes is of a legal kind, and its fields are what is read. -/
theorem decode_header_ok {timeW : Nat} {h : Header} {rest rest' : List SchedWord} {i : Instr}
    (hd : decode timeW (.header h :: rest) = .ok (i, rest')) :
    ∃ k, kindOf (headerKind h) = some k ∧ decodeFields timeW k h rest = .ok (i, rest') := by
  cases hk : kindOf (headerKind h) with
  | none =>
    rw [decode_reservedKind hk] at hd
    cases hd
  | some k =>
    by_cases hbits : h &&& reservedArg k = 0#16
    · exact ⟨k, rfl, by rwa [decode_fields hk hbits] at hd⟩
    · rw [decode_reservedBits hk hbits] at hd
      cases hd

/-- R72: the operand bits from TIME_W up are 0 exactly when the operand is below 2^TIME_W. -/
theorem operand_shiftRight_eq_zero_iff (o : Operand) (timeW : Nat) : o >>> timeW = 0#32 ↔ o.toNat < 2 ^ timeW := by
  rw [← BitVec.toNat_inj, BitVec.toNat_ushiftRight, Nat.shiftRight_eq_div_pow, BitVec.toNat_ofNat, Nat.zero_mod,
    Nat.div_eq_zero_iff_lt (Nat.two_pow_pos timeW)]

/-- R78: FINISH with an operand that TIME_W bits cannot hold. -/
theorem decodeFields_finish_reservedBits {timeW : Nat} {o : Operand} (ho : 2 ^ timeW ≤ o.toNat) (h : Header)
    (rest : List SchedWord) :
    decodeFields timeW .finish h (.operand o :: rest) = .error (.reservedBits h) := by
  have hbits : o >>> timeW ≠ 0#32 := by rwa [Ne, operand_shiftRight_eq_zero_iff, Nat.not_lt]
  simp [decodeFields, withOperand, hbits]

/-- R205 check 2: what the decoder refuses, the step refuses. -/
theorem step_of_decode_error {s : State} {e : DecodeError} (hc : configLegal s.cfg = true)
    (hd : decode s.cfg.timeW s.sched = .error e) : step s = .refused (decodeRefusal e) := by
  simp [step, fetch, hc, hd]

/-- Settles O4: KIND is reserved, or it names a row of R72 whose mask the header fails, or the FINISH operand is too wide; the
decoder answers each. -/
theorem illegalHeadersRefused : Obligations.IllegalHeadersRefused := by
  intro s h rest hc hsched
  refine ⟨fun hkind => ?_, fun hbits => ?_, fun o rest' hh hrest ho => ?_⟩
  · have hk := (kindOf_headerKind_eq_none_iff h).2 hkind
    exact step_of_decode_error hc (hsched ▸ decode_reservedKind hk _ rest)
  · obtain ⟨k, hk, hmask⟩ : ∃ k, (h >>> 12).toNat = (kindMatch k >>> 12).toNat ∧ h &&& reservedArg k ≠ 0#16 := by
      rcases hbits with ⟨hk, hmask⟩ | ⟨hk, hmask⟩ | ⟨hlo, hhi, hmask⟩ | ⟨hk, hmask⟩
      · exact ⟨.reset, hk, hmask⟩
      · exact ⟨.edge, hk, hmask⟩
      · obtain hk | hk | hk | hk : (h >>> 12).toNat = 3 ∨ (h >>> 12).toNat = 4 ∨ (h >>> 12).toNat = 5 ∨
            (h >>> 12).toNat = 6 := by omega
        · exact ⟨.setv, hk, hmask⟩
        · exact ⟨.seta, hk, hmask⟩
        · exact ⟨.ramp, hk, hmask⟩
        · exact ⟨.count, hk, hmask⟩
      · exact ⟨.finish, hk, hmask⟩
    have hkind := (kindOf_headerKind_eq_some_iff h k).2 hk
    exact step_of_decode_error hc (hsched ▸ decode_reservedBits hkind hmask _ rest)
  · have hfinish : kindOf (headerKind h) = some .finish ∧ h &&& reservedArg .finish = 0#16 := by
      rcases hh with rfl | rfl <;> decide
    have hd : decode s.cfg.timeW s.sched = .error (.reservedBits h) := by
      rw [hsched, decode_fields hfinish.1 hfinish.2, hrest, decodeFields_finish_reservedBits ho]
    exact step_of_decode_error hc hd

/-! ### The length of an operation word -/

/-- R71: the kinds with an operand word, by their codes. -/
theorem hasOperand_iff (k : Kind) :
    hasOperand k = true ↔ (kindMatch k >>> 12).toNat = 3 ∨ (kindMatch k >>> 12).toNat = 4 ∨
      (kindMatch k >>> 12).toNat = 7 := by
  cases k <;> decide

theorem withOperand_ok {h : Header} {rest rest' : List SchedWord} {f : Operand → Except DecodeError Instr} {i : Instr}
    (hd : withOperand h rest f = .ok (i, rest')) : ∃ o, rest = .operand o :: rest' ∧ f o = .ok i := by
  match rest with
  | [] => cases hd
  | .header _ :: _ => cases hd
  | .operand o :: ws =>
    cases hf : f o with
    | error e => simp [withOperand, hf] at hd
    | ok j =>
      simp only [withOperand, hf, Except.ok.injEq, Prod.mk.injEq] at hd
      obtain ⟨rfl, rfl⟩ := hd
      exact ⟨o, rfl, hf⟩

/-- R71: the words that the fields of a kind take after the header. -/
theorem decodeFields_rest {timeW : Nat} {k : Kind} {h : Header} {rest rest' : List SchedWord} {i : Instr}
    (hd : decodeFields timeW k h rest = .ok (i, rest')) :
    if hasOperand k then ∃ o, rest = .operand o :: rest' else rest' = rest := by
  cases k with
  | setv | seta | finish =>
    rw [decodeFields] at hd
    obtain ⟨o, hrest, -⟩ := withOperand_ok hd
    exact ⟨o, hrest⟩
  | reset | edge | ramp | count =>
    cases hd
    rfl

/-- R71: a kind with an operand word needs one. -/
theorem decodeFields_truncated {k : Kind} (hk : hasOperand k = true) (timeW : Nat) (h : Header) :
    decodeFields timeW k h [] = .error (.truncated h) := by
  cases k with
  | setv | seta | finish => rfl
  | reset | edge | ramp | count => cases hk

/-- Settles O5: the kind that decoding reads from the header fixes the words its fields take, and a bare header of a kind with
an operand word has none to take. -/
theorem kindFixesLength : Obligations.KindFixesLength := by
  refine ⟨fun timeW h rest i rest' hd => ?_, fun s h hc hsched hh => ?_⟩
  · obtain ⟨k, hkind, hfields⟩ := decode_header_ok hd
    rw [(kindOf_headerKind_eq_some_iff h k).1 hkind]
    simpa only [← hasOperand_iff] using decodeFields_rest hfields
  · obtain ⟨k, hkind, hbits, hop⟩ :
        ∃ k, kindOf (headerKind h) = some k ∧ h &&& reservedArg k = 0#16 ∧ hasOperand k = true := by
      rcases hh with rfl | rfl | rfl | rfl
      · exact ⟨.setv, by decide⟩
      · exact ⟨.seta, by decide⟩
      · exact ⟨.finish, by decide⟩
      · exact ⟨.finish, by decide⟩
    have hd : decode s.cfg.timeW s.sched = .error (.truncated h) := by
      rw [hsched, decode_fields hkind hbits, decodeFields_truncated hop]
    exact step_of_decode_error hc hd

/-! ### Phase codes and direction codes -/

/-- R80: A is bit 1 and B bit 0. -/
theorem phaseCode_toNat (a b : Bool) : (phaseCode a b).toNat = 2 * a.toNat + b.toNat := by
  cases a <;> cases b <;> rfl

/-- R82: the code of a direction is never 10. -/
theorem dirCode_ne_two (d : Direction) : dirCode d ≠ 0b10#2 := by
  cases d <;> decide

/-- R82: codes are two's complement, so negation of directions is negation of codes. -/
theorem dirCode_dirNeg (d : Direction) : dirCode (dirNeg d) = -dirCode d := by
  cases d <;> rfl

/-- Settles O14: the tables of R101 and R82 at their entries, and the three laws of the codes. -/
theorem phaseAndDirectionCodes : Obligations.PhaseAndDirectionCodes :=
  ⟨phaseCode_toNat, rfl, rfl, rfl, rfl, rfl, rfl, rfl, dirCode_ne_two, rfl, rfl, rfl, dirCode_dirNeg⟩

/-! ### Pseudo-operations -/

/-- The block stands where a main-loop iteration starts and can complete: it runs, RAMP is next, and its inputs are well
formed (R86, R131). -/
def IterReady (s : State) : Prop := Running s ∧ s.phase = .pRamp ∧ rampInputsOk s.tv s.ta = true

/-- R130: RAMP then leaves the main loop at COUNT, and writes nothing else that an ITER reads but CV. -/
theorem exec_ramp_of_iterReady {s : State} (hs : IterReady s) :
    ∃ u, exec .ramp s = .next u ∧ Running u ∧ u.phase = .pCount ∧ u.tv = s.tv ∧ u.ta = s.ta ∧ u.cfg = s.cfg ∧
      u.iter = s.iter := by
  obtain ⟨hrun, hphase, hinputs⟩ := hs
  exact ⟨_, execRamp_next.2 ⟨hrun, hphase, hinputs, rfl⟩, hrun, rfl, rfl, rfl, rfl, rfl⟩

/-- R86: the expansion of ITER, replayed from the block's own count, completes where the next ITER starts. -/
theorem runOps_expandIter {s : State} (hs : IterReady s) (tx : Bool) (o : Operand) :
    ∃ t, runOps (expandIter s.cfg.interval s.iter tx o) s = .next t ∧ IterReady t ∧ t.cfg = s.cfg ∧
      t.iter = iterAfter s.cfg.interval s.iter := by
  obtain ⟨u, hramp, hrun, hphase, htv, hta, hcfg, hiter⟩ := exec_ramp_of_iterReady hs
  obtain ⟨-, -, hinputs⟩ := hs
  rw [← htv, ← hta] at hinputs
  rw [← hcfg, ← hiter]
  have hcount : exec .count u = .next (countState u) := execCount_next.2 ⟨hrun, hphase, rfl⟩
  have hboth : runOps [.ramp, .count] s = .next (countState u) :=
    runOps_cons_next.2 ⟨u, hramp, runOps_cons_next.2 ⟨_, hcount, rfl⟩⟩
  have hrunCount : Running (countState u) := by simpa [Running] using hrun
  by_cases hdue : u.iter + 1 = u.cfg.interval
  · have hfinish : exec (.finish tx o) (countState u) = .next (finishState tx o (countState u)) :=
      execFinish_next.2 ⟨hrunCount, by rw [countState_phase, if_pos hdue], rfl⟩
    refine ⟨finishState tx o (countState u), ?_, ⟨by simpa [Running] using hrun, by simp, by simpa using hinputs⟩,
      by simp, ?_⟩
    · rw [expandIter, if_pos hdue]
      exact runOps_append_next.2 ⟨_, hboth, runOps_cons_next.2 ⟨_, hfinish, rfl⟩⟩
    · rw [finishState_iter, iterAfter, if_pos hdue]
  · refine ⟨countState u, ?_, ⟨hrunCount, by rw [countState_phase, if_neg hdue], by simpa using hinputs⟩, by simp, ?_⟩
    · rw [expandIter, if_neg hdue, List.append_nil]
      exact hboth
    · rw [countState_iter, iterAfter, if_neg hdue]

/-- R86: the expansion of RUN completes, ITER by ITER, at the count it reckons. -/
theorem runOps_expandRun (tx : Bool) (o : Operand) (n : Nat) {s : State} (hs : IterReady s) :
    ∃ t, runOps (expandRun s.cfg.interval tx o n s.iter).1 s = .next t ∧ t.phase = .pRamp ∧
      t.iter = (expandRun s.cfg.interval tx o n s.iter).2 := by
  induction n generalizing s with
  | zero => exact ⟨s, rfl, hs.2.1, rfl⟩
  | succ n ih =>
    obtain ⟨u, hiter, hu, hcfg, hcount⟩ := runOps_expandIter hs tx o
    obtain ⟨t, hrest, hphase, htotal⟩ := ih hu
    rw [hcfg, hcount] at hrest htotal
    exact ⟨t, runOps_append_next.2 ⟨u, hiter, hrest⟩, hphase, htotal⟩

/-- R86: ITER is two operations, and FINISH is the third when a report falls due. -/
theorem expandIter_eq (interval iter : Nat) (tx : Bool) (o : Operand) :
    expandIter interval iter tx o =
      if iter + 1 = interval then [.ramp, .count, .finish tx o] else [.ramp, .count] := by
  rw [expandIter]
  split <;> rfl

/-- Settles O59: the expansions are the model's equations, and RUN completes by induction on the number of its ITERs. -/
theorem pseudoOperations : Obligations.PseudoOperations :=
  ⟨fun _ _ => rfl, rfl, expandIter_eq, fun _ _ _ _ _ => ⟨rfl, rfl⟩, fun _ _ _ _ _ _ _ _ _ => ⟨rfl, rfl, rfl, rfl⟩,
    fun _ _ => ⟨rfl, fun _ => rfl⟩, fun n tx o _ hrun hphase hinputs => runOps_expandRun tx o n ⟨hrun, hphase, hinputs⟩⟩

end Sys2Proof.Proofs
end

section
/-! PROOFS. The quadrature decoder (40_decoder.md): the classes of QTRANS (R101), and EDGE with its encoding, its next state
by complement check and class, and its refusals (R100). -/

namespace Sys2Proof.Proofs

open Sys2Proof.Machine Sys2Proof.Safety Sys2Proof.Laws

/-! ### The transition table -/

/-- R101: the NONE entries are the diagonal. -/
theorem qtrans_eq_none_iff : ∀ p c, qtrans p c = .none ↔ p = c := by decide

/-- R101: the INVALID entries are the pairs that differ in both bits. -/
theorem qtrans_eq_invalid_iff : ∀ p c, qtrans p c = .invalid ↔ p ^^^ c = 0b11#2 := by decide

/-! ### A valid transition -/

/-- DIR takes the direction of a valid transition, whether or not that changes it. -/
@[simp] theorem dirAfter_eq (old d : Direction) : dirAfter old d = d := by
  rw [dirAfter, ite_eq_left_iff, not_not]
  exact Eq.symm

/-- R24: a known direction is a reversal exactly when the old one is its negation. -/
theorem dcfAfter_of_known {d : Direction} (hd : d ≠ .unknown) (old : Direction) (dcf : Bool) :
    dcfAfter old d dcf = if old = dirNeg d then true else dcf := by
  cases d with
  | unknown => contradiction
  | cw | ccw => cases old <;> rfl

/-- R100: the writes of a valid transition, DIR and DCF spelled out. -/
theorem validStep_of_known {d : Direction} (hd : d ≠ .unknown) (cur : BitVec 2) (s : State) :
    validStep cur d s = { s with
      prev := cur, tick := (s.tick + 1) % 2 ^ s.cfg.tickW, dir := d,
      dcf := if s.dir = dirNeg d then true else s.dcf } := by
  rw [validStep, dirAfter_eq, dcfAfter_of_known hd, wrap]

/-! ### The complement check and the class -/

/-- R100: a sample is rejected when the check is on and a complement equals its signal. -/
theorem accepted_eq_false_iff {c : Config} {a b an bn : Bool} :
    accepted c ⟨a, b, an, bn⟩ = false ↔ c.complementCheck = true ∧ (an = a ∨ bn = b) := by
  simp only [accepted, complementMismatch, Bool.not_eq_false', Bool.and_eq_true, Bool.or_eq_true, beq_iff_eq]

/-- A rejected sample only counts an error. -/
theorem decodeEdge_of_rejected {a b an bn : Bool} {s : State} (h : accepted s.cfg ⟨a, b, an, bn⟩ = false) :
    decodeEdge a b an bn s = bumpErr s := by
  rcases decodeEdge_history a b an bn s with ⟨-, hnext⟩ | ⟨haccepted, -⟩
  · exact hnext
  · simp [h] at haccepted

/-- An accepted sample is decoded by its class alone. -/
theorem decodeEdge_of_accepted {a b an bn : Bool} {s : State} (h : accepted s.cfg ⟨a, b, an, bn⟩ = true) :
    (qtrans s.prev (phaseCode a b) = .none → decodeEdge a b an bn s = { s with prev := phaseCode a b }) ∧
    (qtrans s.prev (phaseCode a b) = .invalid →
      decodeEdge a b an bn s = bumpErr { s with prev := phaseCode a b }) ∧
    (qtrans s.prev (phaseCode a b) = .fwd → decodeEdge a b an bn s = validStep (phaseCode a b) .cw s) ∧
    (qtrans s.prev (phaseCode a b) = .rev → decodeEdge a b an bn s = validStep (phaseCode a b) .ccw s) := by
  have hcheck : ¬(s.cfg.complementCheck && complementMismatch a b an bn) = true := by
    rwa [accepted, Bool.not_eq_true', ← Bool.not_eq_true] at h
  refine ⟨fun hq => ?_, fun hq => ?_, fun hq => ?_, fun hq => ?_⟩ <;> rw [decodeEdge, if_neg hcheck, hq]

/-- R100: EDGE is enabled on a running block at any PHASE. -/
theorem exec_edge_of_running {s : State} (hs : Running s) (a b an bn : Bool) :
    exec (.edge a b an bn) s = .next (decodeEdge a b an bn s) :=
  execEdge_next.2 ⟨hs, rfl⟩

/-- Settles O15: the entries are the table's own; what a class means is what EDGE writes for it when no sample is rejected. -/
theorem transitionTable : Obligations.TransitionTable := by
  refine ⟨rfl, rfl, rfl, rfl, rfl, rfl, rfl, rfl, rfl, rfl, rfl, rfl, rfl, rfl, rfl, rfl, qtrans_eq_none_iff,
    qtrans_eq_invalid_iff, fun a b an bn s hs hoff => ?_⟩
  have haccepted : accepted s.cfg ⟨a, b, an, bn⟩ = true := by simp [accepted, hoff]
  obtain ⟨hnone, hinvalid, hfwd, hrev⟩ := decodeEdge_of_accepted haccepted
  refine ⟨_, exec_edge_of_running hs a b an bn, fun hq => ?_, fun hq => ?_, ?_⟩
  · simp [hfwd hq, wrap]
  · simp [hrev hq, wrap]
  · rintro (hq | hq)
    · simp [hnone hq]
    · simp [hinvalid hq]

/-! ### EDGE -/

/-- R100: the header of EDGE as a sum, one bit position to each operand. -/
theorem edgeHeader_eq_sum : ∀ a b an bn : Bool,
    0x2000#16 ||| bitAt an 3 ||| bitAt bn 2 ||| bitAt a 1 ||| bitAt b 0 =
      BitVec.ofNat 16 (0x2000 + 8 * an.toNat + 4 * bn.toNat + 2 * a.toNat + b.toNat) := by
  decide

/-- Settles O16: EDGE makes the checks of `whenStarted`, and its next state is that of a rejected sample or that of the
class. -/
theorem edgeOperation : Obligations.EdgeOperation := by
  refine ⟨fun a b an bn => by rw [encode, edgeHeader_eq_sum], fun a b an bn s =>
    ⟨fun hoff => whenStarted_not_started hoff _, fun hon hfault => whenStarted_faulted hon hfault _, fun hs => ?_⟩⟩
  rw [exec_edge_of_running hs]
  split
  · next hmismatch => rw [decodeEdge_of_rejected (accepted_eq_false_iff.2 hmismatch), bumpErr, wrap]
  · next hmatch =>
    rw [← accepted_eq_false_iff, Bool.not_eq_false] at hmatch
    obtain ⟨hnone, hinvalid, hfwd, hrev⟩ := decodeEdge_of_accepted hmatch
    refine ⟨fun hq => ?_, fun hq => ?_, fun hq => ?_, fun hq => ?_⟩
    · rw [hnone hq]
    · rw [hinvalid hq, bumpErr, wrap]
    · rw [hfwd hq, validStep_of_known (by decide), dirNeg]
    · rw [hrev hq, validStep_of_known (by decide), dirNeg]

end Sys2Proof.Proofs
end

section
/-! PROOFS. The velocity ramp (41_ramp.md): the input precondition and its fault (R131), RAMP with its encoding, branches and
refusals (R130), the host writes SETV and SETA (R132, R133), and RAMP's independence of the sensed direction (R137). -/

namespace Sys2Proof.Proofs

open Sys2Proof.Machine Sys2Proof.Safety Sys2Proof.Laws

/-! ### The input precondition -/

/-- R8: on finite numbers `f32_le` is the order of the exact values. -/
theorem f32Le_iff_value_le {a b : F32} (ha : f32IsFinite a = true) (hb : f32IsFinite b = true) :
    f32Le a b = true ↔ f32Value a ≤ f32Value b := by
  rw [f32Le_iff (not_nan_of_finite ha) (not_nan_of_finite hb), f32Key_le_iff]

/-- R131, with the comparison read as one of exact values: both zeros have the value 0. -/
theorem rampInputsOk_iff {tv ta : F32} :
    rampInputsOk tv ta = true ↔ f32IsFinite tv = true ∧ f32IsFinite ta = true ∧ 0 ≤ f32Value ta := by
  have hzero : f32Value 0x00000000#32 = 0 := by decide
  rw [rampInputsOk, Bool.and_eq_true, Bool.and_eq_true, and_assoc]
  refine and_congr_right fun _ => and_congr_right fun hta => ?_
  rw [f32Le_iff_value_le (by decide) hta, hzero]

/-! ### RAMP -/

/-- R130: past the checks of R205, RAMP is its precondition and its one step. -/
theorem exec_ramp_of_named {s : State} (hs : Running s) (hp : s.phase = .pRamp) :
    exec .ramp s =
      if rampInputsOk s.tv s.ta then .next { s with cv := rampNext s, phase := .pCount } else raisePrecond s := by
  rw [exec, execRamp, whenStarted_running hs, whenPhase_named hp]

/-- R203: malformed inputs end RAMP in the fault, with FAULT written and nothing else. -/
theorem exec_ramp_precond {s : State} (hs : Running s) (hp : s.phase = .pRamp)
    (hinputs : rampInputsOk s.tv s.ta = false) :
    exec .ramp s = .fault (.precond { s with fault := .precond }) := by
  simp [exec_ramp_of_named hs hp, hinputs, raisePrecond]

/-- Settles O23: `f32_le(+0, TA)` compares exact values, and inputs that fail the check raise the fault. -/
theorem rampInputPrecondition : Obligations.RampInputPrecondition := by
  refine ⟨fun tv ta => rampInputsOk_iff, fun s hs hp hmalformed => ?_⟩
  rw [← rampInputsOk_iff, Bool.not_eq_true] at hmalformed
  exact exec_ramp_precond hs hp hmalformed

/-- Settles O24: the checks of R205 answer first, then the precondition, and the three branches are those of `rampNext`. -/
theorem rampOperation : Obligations.RampOperation :=
  ⟨rfl, fun _ => ⟨fun hoff => whenStarted_not_started hoff _, fun hon hfault => whenStarted_faulted hon hfault _,
    exec_mainLoop_disabled rfl, exec_ramp_precond,
    fun hs hp hinputs => execRamp_next.2 ⟨hs, hp, hinputs, rfl⟩⟩⟩

/-! ### The host writes -/

/-- R205 checks 3 and 4: all that stands between an operation without PHASE and precondition and its effect. -/
theorem whenStarted_outcomes (s : State) (r : Result) :
    (Running s → whenStarted s r = r) ∧
    (s.started = false → whenStarted s r = .refused .beforeReset) ∧
    (s.started = true → s.fault ≠ .none → whenStarted s r = .fault (.noStep s)) :=
  ⟨fun hs => whenStarted_running hs r, fun hoff => whenStarted_not_started hoff r,
    fun hon hfault => whenStarted_faulted hon hfault r⟩

/-- Settles O26: SETV makes the checks of `whenStarted` and none on its operand. -/
theorem setvOperation : Obligations.SetvOperation :=
  ⟨fun _ => rfl, fun v s => whenStarted_outcomes s (.next { s with tv := v })⟩

/-- Settles O27: SETA makes the checks of `whenStarted` and none on its operand. -/
theorem setaOperation : Obligations.SetaOperation :=
  ⟨fun _ => rfl, fun v s => whenStarted_outcomes s (.next { s with ta := v })⟩

/-! ### The sensed direction -/

/-- R137: the step of the ramp is computed from TV, TA, CV and DT, so another sensed direction gives the same one. -/
theorem rampNext_with_dir_dcf (s : State) (d : Direction) (f : Bool) :
    rampNext { s with dir := d, dcf := f } = rampNext s := rfl

/-- Settles O31: neither RAMP's checks nor the new CV read DIR or DCF, and its two writes are CV and PHASE. -/
theorem rampIgnoresSensedDirection : Obligations.RampIgnoresSensedDirection := by
  intro s t d f h
  obtain ⟨hs, hp, hinputs, rfl⟩ := execRamp_next.1 h
  exact ⟨rfl, rfl, execRamp_next.2 ⟨hs, hp, hinputs, by simp only [rampNext_with_dir_dcf]⟩⟩

end Sys2Proof.Proofs
end

section
/-! PROOFS. The reporter (42_reporter.md): COUNT with its encoding, its two next states and its refusals (R160), FINISH with
its encoding, the record of its window and its refusals (R161), and the duration from an external time (R167). -/

namespace Sys2Proof.Proofs

open Sys2Proof.Machine Sys2Proof.Safety Sys2Proof.Laws

/-! ### COUNT -/

/-- R160: the count that reaches INTERVAL samples TICK into TSMP and zeroes it. -/
theorem countState_of_due {s : State} (hdue : s.iter + 1 = s.cfg.interval) :
    countState s = { s with
      iter := s.cfg.interval, loopc := (s.loopc + 1) % 2 ^ s.cfg.timeW, tsmp := s.tick, tick := 0,
      phase := .pFinish } := by
  rw [countState, if_pos hdue, wrap, hdue]

/-- R160: any other count leaves TICK and TSMP. -/
theorem countState_of_not_due {s : State} (hdue : s.iter + 1 ≠ s.cfg.interval) :
    countState s = { s with
      iter := s.iter + 1, loopc := (s.loopc + 1) % 2 ^ s.cfg.timeW, phase := .pRamp } := by
  rw [countState, if_neg hdue, wrap]

/-- R160: COUNT completes where PHASE names it. -/
theorem exec_count_of_named {s : State} (hs : Running s) (hp : s.phase = .pCount) :
    exec .count s = .next (countState s) :=
  execCount_next.2 ⟨hs, hp, rfl⟩

/-- Settles O32: the checks of R205 answer first, then the comparison of ITER + 1 with INTERVAL gives the next state. -/
theorem countOperation : Obligations.CountOperation :=
  ⟨rfl, fun _ => ⟨fun hoff => whenStarted_not_started hoff _, fun hon hfault => whenStarted_faulted hon hfault _,
    exec_mainLoop_disabled rfl,
    fun hs hp hdue => by rw [exec_count_of_named hs hp, countState_of_due hdue],
    fun hs hp hdue => by rw [exec_count_of_named hs hp, countState_of_not_due hdue]⟩⟩

/-! ### FINISH -/

/-- R161: the header of FINISH as a sum, tx in bit 0. -/
theorem finishHeader_eq_sum : ∀ tx : Bool, 0x7000#16 ||| bitAt tx 0 = BitVec.ofNat 16 (0x7000 + tx.toNat) := by
  decide

/-- R161: LOOPC is the time when TIME_SOURCE is ITER, and time_in otherwise. -/
theorem timestamp_eq (o : Operand) (s : State) :
    timestamp o s = if s.cfg.timeSource = .iter then s.loopc else o.toNat % 2 ^ s.cfg.timeW := by
  rw [timestamp]
  cases s.cfg.timeSource <;> rfl

theorem timestamp_of_external {s : State} (hsource : s.cfg.timeSource = .external) (o : Operand) :
    timestamp o s = o.toNat % 2 ^ s.cfg.timeW := by
  rw [timestamp_eq, hsource, if_neg (by decide)]

/-- R7: the narrowed difference, its modulus read in the integers. -/
theorem wrapSub_eq (n x y : Nat) : wrapSub n x y = (((x : Int) - (y : Int)) % 2 ^ n).toNat := by
  rw [wrapSub, Nat.cast_pow, Nat.cast_ofNat]

/-- R7: a difference from 0 is only narrowed. -/
theorem wrapSub_zero (n x : Nat) : wrapSub n x 0 = x % 2 ^ n := by
  rw [wrapSub, Nat.cast_zero, sub_zero, ← Int.natCast_mod, Int.toNat_natCast]

/-- R161: the whole state FINISH leaves; only TLM_OUT depends on tx. -/
theorem finishState_eq (tx : Bool) (o : Operand) (s : State) :
    finishState tx o s = { s with
      dcf := false, obst := timestamp o s, iter := 0, phase := .pRamp,
      tlmOut := if tx = true then s.tlmOut ++ [windowRecord o s] else s.tlmOut } := by
  cases tx <;> rfl

/-- R161: FINISH completes where PHASE names it. -/
theorem exec_finish_of_named {s : State} (hs : Running s) (hp : s.phase = .pFinish) (tx : Bool) (o : Operand) :
    exec (.finish tx o) s = .next (finishState tx o s) :=
  execFinish_next.2 ⟨hs, hp, rfl⟩

/-- Settles O33: the checks of R205 answer first; the next state is that of `finishState` at the timestamp of the time
source. -/
theorem finishOperation : Obligations.FinishOperation := by
  refine ⟨fun tx o => by rw [encode, finishHeader_eq_sum], fun tx o s =>
    ⟨fun hoff => whenStarted_not_started hoff _, fun hon hfault => whenStarted_faulted hon hfault _,
      exec_mainLoop_disabled rfl, fun hs hp now hnow => ?_⟩⟩
  rw [← timestamp_eq] at hnow
  rw [exec_finish_of_named hs hp, finishState_eq, windowRecord, wrapSub_eq, hnow]

/-! ### The duration from an external time -/

/-- Settles O39: the record's duration is the narrowed difference of time_in and the old OBST. -/
theorem externalDuration : Obligations.ExternalDuration := by
  intro o s hs hp hsource
  have hnow := timestamp_of_external hsource o
  have hdur : (windowRecord o s).dur = wrapSub s.cfg.timeW (o.toNat % 2 ^ s.cfg.timeW) s.obst := by
    rw [windowRecord, hnow]
  refine ⟨finishState true o s, windowRecord o s, exec_finish_of_named hs hp true o, by simp, by rw [finishState_obst, hnow],
    ?_, ?_, fun hzero => ?_⟩
  · rw [hdur]
    exact wrapSub_lt _ _ _
  · rw [hdur, wrapSub_add, Nat.mod_mod]
  · rw [hdur, hzero, wrapSub_zero, Nat.mod_mod]

end Sys2Proof.Proofs
end

section
/-! PROOFS. Faults (60_exceptions.md): check 4 of R205 for every operation, and the finality of F_PRECOND (R203). -/

namespace Sys2Proof.Proofs

open Sys2Proof.Machine Sys2Proof.Safety Sys2Proof.Laws

/-- R205 check 4, as RESET makes it. -/
theorem unlessFaulted_faulted {s : State} (hon : s.started = true) (hfault : s.fault ≠ .none) (r : Result) :
    unlessFaulted s r = .fault (.noStep s) :=
  if_pos ⟨hon, hfault⟩

/-- R205 checks 3 and 4: every operation but RESET makes them before anything of its own. -/
theorem exec_whenStarted {i : Instr} (hi : isReset i = false) (s : State) : ∃ r, exec i s = whenStarted s r := by
  cases i with
  | reset => cases hi
  | edge | setv | seta | ramp | count | finish => exact ⟨_, rfl⟩

/-- R205 check 4: once the block has started and FAULT is set, no operation has a step, RESET included. -/
theorem exec_faulted {s : State} (hon : s.started = true) (hfault : s.fault ≠ .none) (i : Instr) :
    exec i s = .fault (.noStep s) := by
  cases hi : isReset i with
  | false =>
    obtain ⟨r, hr⟩ := exec_whenStarted hi s
    rw [hr, whenStarted_faulted hon hfault]
  | true =>
    cases i with
    | reset a b => exact unlessFaulted_faulted hon hfault _
    | edge | setv | seta | ramp | count | finish => cases hi

/-- Settles O25: the fault is that of `exec_ramp_precond`, and the state it leaves is a started one with FAULT set. -/
theorem preconditionFaultIsFinal : Obligations.PreconditionFaultIsFinal := by
  intro s hs hp hinputs
  have hset : ({ s with fault := .precond } : State).fault ≠ .none := by simp
  exact ⟨exec_ramp_precond hs hp hinputs, exec_faulted hs.1 hset⟩

end Sys2Proof.Proofs
end

section
/-! PROOFS. Reset (70_reset_and_hazards.md): RESET with its encoding, its next state and no step after a fault (R230), what it
keeps (R231), the refusals before the first RESET (R232), and the state it starts a run from (R233). -/

namespace Sys2Proof.Proofs

open Sys2Proof.Machine Sys2Proof.Safety Sys2Proof.Laws

/-! ### RESET -/

/-- R230: the header of RESET as a sum, one bit position to each level. -/
theorem resetHeader_eq_sum : ∀ a b : Bool,
    0x1000#16 ||| bitAt a 1 ||| bitAt b 0 = BitVec.ofNat 16 (0x1000 + 2 * a.toNat + b.toNat) := by
  decide

/-- R230: RESET is enabled before the first RESET and while no fault is set, at any PHASE. -/
theorem exec_reset_of_enabled {s : State} (hs : s.started = false ∨ s.fault = .none) (a b : Bool) :
    exec (.reset a b) s = .next (loadReset a b s) := by
  refine execReset_next.2 ⟨fun hon => ?_, rfl⟩
  rcases hs with hoff | hnone
  · simp [hoff] at hon
  · exact hnone

/-- Settles O8: past check 4 of R205 RESET answers `loadReset`, which gives every register its reset value. -/
theorem resetOperation : Obligations.ResetOperation :=
  ⟨fun a b => by rw [encode, resetHeader_eq_sum], fun a b _ =>
    ⟨fun hs => exec_reset_of_enabled hs a b, fun hon hfault => exec_faulted hon hfault (.reset a b)⟩⟩

/-- R231: the reset load reads no register, only what it keeps. -/
theorem loadReset_eq_of_kept_eq {s s' : State} (hcfg : s.cfg = s'.cfg) (hout : s.tlmOut = s'.tlmOut)
    (hsched : s.sched = s'.sched) (a b : Bool) : loadReset a b s = loadReset a b s' := by
  rw [loadReset, loadReset, hcfg, hout, hsched]

/-- Settles O9: both states are answered by the one reset load of what they agree on. -/
theorem resetForgetsEveryRegister : Obligations.ResetForgetsEveryRegister := by
  intro a b s s' hs hs' hcfg hout hsched
  refine ⟨loadReset a b s, exec_reset_of_enabled hs a b, ?_, loadReset_tlmOut a b s, loadReset_phase a b s⟩
  rw [exec_reset_of_enabled hs' a b, loadReset_eq_of_kept_eq hcfg hout hsched]

/-! ### Before and after the first RESET -/

/-- Settles O11: every operation but RESET makes check 3 of R205 first, and RESET is enabled before the first RESET. -/
theorem onlyResetBeforeTheFirstReset : Obligations.OnlyResetBeforeTheFirstReset := by
  refine fun i s hoff => ⟨fun hi => ?_, ?_⟩
  · obtain ⟨r, hr⟩ := exec_whenStarted hi s
    rw [hr, whenStarted_not_started hoff]
  · rintro a b rfl
    exact ⟨loadReset a b s, exec_reset_of_enabled (.inl hoff) a b, loadReset_started a b s, loadReset_prev a b s⟩

/-- R233: RESET leaves a running block with RAMP next, and the zero targets it loads are well formed (R131). -/
theorem loadReset_iterReady (a b : Bool) (s : State) : IterReady (loadReset a b s) := by
  have hzero : rampInputsOk 0#32 0#32 = true := by decide
  exact ⟨⟨loadReset_started a b s, loadReset_fault a b s⟩, loadReset_phase a b s, hzero⟩

/-- R57: while RAMP is next, a main-loop operation with another PHASE is refused. -/
theorem exec_disabled_of_ramp_next {i : Instr} {p : Phase} {s : State} (hi : phaseOf i = some p) (hp : .pRamp ≠ p)
    (hs : Running s) (hphase : s.phase = .pRamp) : exec i s = .refused (.disabled i .pRamp) := by
  rw [← hphase] at hp ⊢
  exact exec_mainLoop_disabled hi hs hp

/-- Settles O12: the state RESET leaves starts an iteration, so RAMP completes and the other two main-loop operations do not;
EDGE and the host writes ask for a running block alone. -/
theorem afterResetRampIsNext : Obligations.AfterResetRampIsNext := by
  intro a b s t h
  obtain ⟨-, rfl⟩ := execReset_next.1 h
  obtain ⟨hrun, hphase, -⟩ := loadReset_iterReady a b s
  refine ⟨?_, exec_disabled_of_ramp_next rfl (by decide) hrun hphase,
    fun tx o => exec_disabled_of_ramp_next rfl (by decide) hrun hphase,
    fun a' b' an bn => ⟨_, exec_edge_of_running hrun a' b' an bn⟩,
    fun v => ⟨_, execSetv_next.2 ⟨hrun, rfl⟩⟩, fun v => ⟨_, execSeta_next.2 ⟨hrun, rfl⟩⟩⟩
  obtain ⟨u, hramp, -⟩ := exec_ramp_of_iterReady (loadReset_iterReady a b s)
  exact ⟨u, hramp⟩

end Sys2Proof.Proofs
end

section
/-! PROOFS. The round trip of the encoding (30_encoding.md section 1): what a header's match and mask columns (R72) say of its
bits, the decoder after the encoder and the encoder after the decoder, and the fields of a packed record (R84). -/

namespace Sys2Proof.Proofs

open Sys2Proof.Machine Sys2Proof.Safety Sys2Proof.Laws

/-! ### Decoding what was encoded -/

/-- R72: FINISH is well formed when its operand passes the check of R73. -/
theorem decodeFields_finish_of_wellFormed {timeW : Nat} {tx : Bool} {o : Operand}
    (hwf : (Instr.finish tx o).wellFormed timeW = true) (h : Header) (rest : List SchedWord) :
    decodeFields timeW .finish h (.operand o :: rest) = .ok (.finish (h.getLsbD 0) o, rest) := by
  have hbits : o >>> timeW = 0#32 := of_decide_eq_true hwf
  simp [decodeFields, withOperand, hbits]

/-- Settles O1: the encoder's header is of its operation's kind with no reserved bit set, so the decoder reads its fields, and
each field stands where the encoder put it. -/
theorem decodeOfEncode : Obligations.DecodeOfEncode := by
  intro timeW i rest hwf
  cases i with
  | reset a b => cases a <;> cases b <;> exact decode_fields (k := .reset) (by decide) (by decide) timeW rest
  | edge a b an bn =>
    cases a <;> cases b <;> cases an <;> cases bn <;>
      exact decode_fields (k := .edge) (by decide) (by decide) timeW rest
  | setv v => exact decode_fields (k := .setv) (by decide) (by decide) timeW (.operand v :: rest)
  | seta v => exact decode_fields (k := .seta) (by decide) (by decide) timeW (.operand v :: rest)
  | ramp => exact decode_fields (k := .ramp) (by decide) (by decide) timeW rest
  | count => exact decode_fields (k := .count) (by decide) (by decide) timeW rest
  | finish tx o =>
    cases tx <;>
      exact (decode_fields (k := .finish) (by decide) (by decide) timeW (.operand o :: rest)).trans
        (decodeFields_finish_of_wellFormed hwf _ rest)

/-! ### Encoding what was decoded -/

/-- R72: a header of kind `k` whose reserved bits are 0 is the match column under the mask column: KIND and the reserved bits
are all that the mask looks at. -/
theorem and_kindMask_eq_kindMatch {h : Header} {k : Kind} (hk : kindOf (headerKind h) = some k)
    (hbits : h &&& reservedArg k = 0#16) : h &&& kindMask k = kindMatch k := by
  have hkind : h >>> 12 = kindMatch k >>> 12 := BitVec.eq_of_toNat_eq ((kindOf_headerKind_eq_some_iff h k).1 hk)
  have htop : h &&& 0xF000#16 = (h >>> 12) <<< 12 := by
    ext i hi
    interval_cases i <;> simp
  have hmask : kindMask k = 0xF000#16 ||| reservedArg k := by cases k <;> decide
  rw [hmask, BitVec.and_or_distrib_left, hbits, htop, hkind]
  cases k <;> decide

/-- R75: a header is what its mask keeps and the one-bit fields the mask leaves out, each at its own bit. -/
theorem header_split_reset (h : Header) :
    h = (h &&& kindMask .reset) ||| bitAt (h.getLsbD 1) 1 ||| bitAt (h.getLsbD 0) 0 := by
  ext i hi
  interval_cases i <;> simp [kindMask, bitAt]

theorem header_split_edge (h : Header) :
    h = (h &&& kindMask .edge) ||| bitAt (h.getLsbD 3) 3 ||| bitAt (h.getLsbD 2) 2 ||| bitAt (h.getLsbD 1) 1 |||
      bitAt (h.getLsbD 0) 0 := by
  ext i hi
  interval_cases i <;> simp [kindMask, bitAt]

theorem header_split_finish (h : Header) : h = (h &&& kindMask .finish) ||| bitAt (h.getLsbD 0) 0 := by
  ext i hi
  interval_cases i <;> simp [kindMask, bitAt]

/-- A header whose mask is all ones is its match column. -/
theorem header_eq_kindMatch {h : Header} {k : Kind} (hmatch : h &&& kindMask k = kindMatch k)
    (hmask : kindMask k = BitVec.allOnes 16) : h = kindMatch k := by
  rwa [hmask, BitVec.and_allOnes] at hmatch

/-- R73: the fields of a header that matches its row are those of a well-formed operation, whose words are that header and the
operand that was taken. -/
theorem encode_of_decodeFields {timeW : Nat} {k : Kind} {h : Header} {rest rest' : List SchedWord} {i : Instr}
    (hmatch : h &&& kindMask k = kindMatch k) (hd : decodeFields timeW k h rest = .ok (i, rest')) :
    i.wellFormed timeW = true ∧ .header h :: rest = encode i ++ rest' := by
  cases k with
  | reset =>
    cases hd
    refine ⟨rfl, ?_⟩
    have hsplit := header_split_reset h
    rw [hmatch] at hsplit
    exact congrArg (SchedWord.header · :: rest) hsplit
  | edge =>
    cases hd
    refine ⟨rfl, ?_⟩
    have hsplit := header_split_edge h
    rw [hmatch] at hsplit
    exact congrArg (SchedWord.header · :: rest) hsplit
  | ramp | count =>
    cases hd
    exact ⟨rfl, by rw [header_eq_kindMatch hmatch (by decide)]; rfl⟩
  | setv | seta =>
    rw [decodeFields] at hd
    obtain ⟨o, rfl, ho⟩ := withOperand_ok hd
    cases ho
    exact ⟨rfl, by rw [header_eq_kindMatch hmatch (by decide)]; rfl⟩
  | finish =>
    rw [decodeFields] at hd
    obtain ⟨o, rfl, ho⟩ := withOperand_ok hd
    split at ho
    · next hbits =>
      cases ho
      refine ⟨decide_eq_true hbits, ?_⟩
      have hsplit := header_split_finish h
      rw [hmatch] at hsplit
      exact congrArg (SchedWord.header · :: .operand o :: rest') hsplit
    · cases ho

/-- Settles O2: a stream that decodes begins with a header, which matches the row of its kind, and the fields are read back
from it. -/
theorem encodeOfDecode : Obligations.EncodeOfDecode := by
  intro timeW ws i rest hd
  match ws with
  | [] => cases hd
  | .operand _ :: _ => cases hd
  | .header h :: ws =>
    obtain ⟨k, hk, hfields⟩ := decode_header_ok hd
    have hbits : h &&& reservedArg k = 0#16 := by
      by_contra hne
      rw [decode_reservedBits hk hne] at hd
      cases hd
    exact encode_of_decodeFields (and_kindMask_eq_kindMatch hk hbits) hfields

/-- Settles O3: each word of the table is decoded by evaluation. -/
theorem specWordsDecode : Obligations.SpecWordsDecode :=
  ⟨rfl, rfl, rfl, rfl, rfl, rfl, rfl, rfl⟩

/-! ### The packed record -/

/-- Settles O58: the record is a concatenation of its fields, from ticks up, and each field is read past those below it. -/
theorem recordPacking : Obligations.RecordPacking := by
  intro c r hticks hdur
  refine ⟨?_, ?_, ?_, ?_⟩
  · rw [packRecord, BitVec.extractLsb'_append_eq_of_add_le (by omega), BitVec.extractLsb'_append_eq_of_add_le (by omega),
      BitVec.extractLsb'_append_eq_right, BitVec.toNat_ofNat, Nat.mod_eq_of_lt hticks]
  · rw [packRecord, BitVec.extractLsb'_append_eq_of_add_le (by omega), BitVec.extractLsb'_append_eq_of_add_le (by omega),
      BitVec.extractLsb'_append_eq_left, BitVec.toNat_ofNat, Nat.mod_eq_of_lt hdur]
  · rw [packRecord, Nat.add_comm c.tickW, BitVec.extractLsb'_append_eq_of_add_le (by omega),
      BitVec.extractLsb'_append_eq_left]
  · rw [packRecord, BitVec.getLsbD_append, if_neg (by omega), BitVec.getLsbD_ofBool,
      show c.tickW + c.timeW + 2 - (2 + (c.timeW + c.tickW)) = 0 by omega]
    simp

end Sys2Proof.Proofs
end

section
/-! PROOFS. Steps and schedules: the order of the checks of one step (60_exceptions.md R205), the operations that have a next
state (20_memory.md R56), and a schedule's words stepped through (30_encoding.md R76). -/

namespace Sys2Proof.Proofs

open Sys2Proof.Machine Sys2Proof.Safety Sys2Proof.Laws

/-! ### One step -/

/-- Past checks 1 and 2 of R205 a step is its operation, run on the state with the operation's words taken. -/
theorem step_of_decode_ok {s : State} {i : Instr} {rest : List SchedWord} (hc : configLegal s.cfg = true)
    (hd : decode s.cfg.timeW s.sched = .ok (i, rest)) : step s = exec i (advance rest s) := by
  simp [step, fetch, hc, hd]

/-- Settles O6: that is the equation of a step whose words decode. -/
theorem stepRunsTheDecodedOperation : Obligations.StepRunsTheDecodedOperation := fun _ _ _ => step_of_decode_ok

/-! ### Which operations have a next state -/

/-- R205 checks 3 and 4: an operation other than RESET that has a next state ran on a running block. -/
theorem running_of_exec {i : Instr} {s t : State} (hi : isReset i = false) (h : exec i s = .next t) : Running s := by
  obtain ⟨r, hr⟩ := exec_whenStarted hi s
  rw [hr, whenStarted_next] at h
  exact h.1

/-- R56: an operation of the main loop is enabled on a running block at its PHASE. -/
theorem enabled_iff_of_phaseOf_eq_some {i : Instr} {p : Phase} (hi : phaseOf i = some p) (s : State) :
    Enabled i s ↔ Running s ∧ s.phase = p := by
  have hreset : isReset i = false := by
    cases i with
    | reset => cases hi
    | edge | setv | seta | ramp | count | finish => rfl
  simp [Enabled, hreset, hi]

/-- R56: EDGE, SETV and SETA are enabled on every running block. -/
theorem enabled_iff_of_phaseOf_eq_none {i : Instr} (hi : phaseOf i = none) (hreset : isReset i = false) (s : State) :
    Enabled i s ↔ Running s := by
  simp [Enabled, hreset, hi]

/-- Settles O44: the inversion lemma of each operation gives its enabling condition, and for RAMP the precondition. -/
theorem stepsExactlyWhenEnabled : Obligations.StepsExactlyWhenEnabled := by
  intro i s
  cases i with
  | reset a b => simp [exec, execReset_next, Enabled, isReset]
  | edge a b an bn => simp [exec, execEdge_next, enabled_iff_of_phaseOf_eq_none (i := .edge a b an bn) rfl rfl]
  | setv v => simp [exec, execSetv_next, enabled_iff_of_phaseOf_eq_none (i := .setv v) rfl rfl]
  | seta v => simp [exec, execSeta_next, enabled_iff_of_phaseOf_eq_none (i := .seta v) rfl rfl]
  | ramp => simp [exec, execRamp_next, enabled_iff_of_phaseOf_eq_some (i := .ramp) rfl, and_assoc]
  | count => simp [exec, execCount_next, enabled_iff_of_phaseOf_eq_some (i := .count) rfl]
  | finish tx o => simp [exec, execFinish_next, enabled_iff_of_phaseOf_eq_some (i := .finish tx o) rfl]

/-- Settles O41: the configuration and the decoding answer before `exec`, whose own checks are those of `whenStarted`, of
PHASE and of RAMP's inputs. -/
theorem orderOfChecks : Obligations.OrderOfChecks := by
  refine fun s => ⟨step_of_configLegal_eq_false, fun hc e hd => step_of_decode_error hc hd,
    fun hc i rest hd => ?_, fun a b an bn hs hcheck hmismatch => ?_⟩
  · rw [step_of_decode_ok hc hd]
    refine ⟨fun hoff hi => ?_, fun hon hfault => exec_faulted (s := advance rest s) hon hfault i,
      fun hs p hi hp => exec_mainLoop_disabled hi hs hp, ?_, ?_⟩
    · obtain ⟨r, hr⟩ := exec_whenStarted hi (advance rest s)
      rw [hr, whenStarted_not_started (s := advance rest s) hoff]
    · rintro hs hp rfl hinputs
      exact exec_ramp_precond hs hp hinputs
    · intro henabled hinputs
      exact (stepsExactlyWhenEnabled i (advance rest s)).2 ⟨henabled, hinputs⟩
  · rw [exec_edge_of_running hs, decodeEdge_of_rejected (accepted_eq_false_iff.2 ⟨hcheck, hmismatch⟩), bumpErr, wrap]

/-! ### A whole schedule -/

/-- R76: a step whose schedule begins with the words of an operation runs that operation and leaves the words after them. -/
theorem step_of_encoded {i : Instr} {s t : State} (hc : configLegal s.cfg = true)
    (hwf : i.wellFormed s.cfg.timeW = true) (h : exec i s = .next t) (ws : List SchedWord) :
    step { s with sched := encode i ++ ws } = .next { t with sched := ws } := by
  rw [step_of_decode_ok (s := { s with sched := encode i ++ ws }) hc (decodeOfEncode s.cfg.timeW i ws hwf)]
  exact exec_sched i s t ws h

/-- A run of the host's machine goes on from its first step's next state. -/
theorem core_run_succ {s u : State} (h : step s = .next u) (k : Nat) :
    Host.Core.run Sys2Proof.core (k + 1) s = Host.Core.run Sys2Proof.core k u := by
  have hstep : Sys2Proof.core.step s = .next u := h
  simp only [Host.Core.run, hstep]

/-- Settles O60, by induction on the operations: each step takes the words of the first one, and no operation writes the
configuration that the next is decoded at. -/
theorem scheduleRunsItsOperations : Obligations.ScheduleRunsItsOperations := by
  intro ops rest
  induction ops with
  | nil =>
    rintro s t - - h
    rw [next_eq_next.1 h]
    rfl
  | cons i is ih =>
    intro s t hc hwf h
    obtain ⟨u, hu, hrest⟩ := runOps_cons_next.1 h
    obtain ⟨hcfg, -⟩ := eachRegisterHasItsWriters i s u hu
    rw [List.all_cons, Bool.and_eq_true] at hwf
    have hstep := step_of_encoded hc hwf.1 hu (encodeAll is ++ rest)
    rw [encodeAll, List.append_assoc, List.length_cons, core_run_succ hstep]
    exact ih u t (hcfg ▸ hc) (hcfg ▸ hwf.2) hrest

end Sys2Proof.Proofs
end

section
/-! PROOFS. The decoder over runs (40_decoder.md section 3): what one operation adds to the history of valid transitions, and
with it DIR, DCF and TICK after a run (R103 to R105), the decoder registers as a function of the samples (R102), ambiguous
samples (R106), and edge events (60_exceptions.md R206). -/

namespace Sys2Proof.Proofs

open Sys2Proof.Machine Sys2Proof.Safety Sys2Proof.Laws

/-! ### Runs -/

/-- Induction over a run that completes: what a run of no operations has, and what the first operation hands back from the
rest of the run, every run of operations of that kind has. -/
theorem runOps_induction {kind : Instr → Bool} {motive : List Instr → State → State → Prop}
    (nil : ∀ s, motive [] s s)
    (cons : ∀ i is s u t, kind i = true → exec i s = .next u → motive is u t → motive (i :: is) s t)
    {ops : List Instr} {s t : State} (hops : ops.all kind = true) (h : runOps ops s = .next t) : motive ops s t := by
  induction ops generalizing s with
  | nil =>
    rw [next_eq_next.1 h]
    exact nil s
  | cons i is ih =>
    rw [List.all_cons, Bool.and_eq_true] at hops
    obtain ⟨u, hu, hrest⟩ := runOps_cons_next.1 h
    exact cons i is s u t hops.1 hu (ih hops.2 hrest)

/-- What every operation of a kind keeps true, a run of operations of that kind keeps true. -/
theorem runOps_invariant {kind : Instr → Bool} {P : State → Prop}
    (hstep : ∀ i s t, kind i = true → exec i s = .next t → P s → P t) {ops : List Instr} {s t : State}
    (hops : ops.all kind = true) (h : runOps ops s = .next t) (hs : P s) : P t :=
  runOps_induction (motive := fun _ s t => P s → P t) (fun _ => id)
    (fun i _ s u _ hi hu ih hs => ih (hstep i s u hi hu hs)) hops h hs

/-! ### What one operation adds to the history -/

/-- The directions of the valid transitions that operation `i` makes from state `s`: at most one, and none but EDGE's. -/
def transitions (i : Instr) (s : State) : List Direction := validDirs s.cfg s.prev (samplesOf [i])

/-- An operation that is no EDGE adds no sample. -/
theorem samplesOf_cons_of_not_edge {i : Instr} (hi : isEdge i = false) (is : List Instr) :
    samplesOf (i :: is) = samplesOf is := by
  cases i with
  | edge => cases hi
  | reset | setv | seta | ramp | count | finish => rfl

theorem exists_of_isEdge {i : Instr} (hi : isEdge i = true) : ∃ a b an bn, i = .edge a b an bn := by
  cases i with
  | edge a b an bn => exact ⟨a, b, an, bn, rfl⟩
  | reset | setv | seta | ramp | count | finish => cases hi

theorem transitions_of_not_edge {i : Instr} (hi : isEdge i = false) (s : State) : transitions i s = [] := by
  rw [transitions, samplesOf_cons_of_not_edge hi]
  rfl

/-- An EDGE adds the direction of its transition if its sample is accepted and the transition valid. -/
theorem transitions_edge (a b an bn : Bool) (s : State) :
    transitions (.edge a b an bn) s =
      if accepted s.cfg ⟨a, b, an, bn⟩ then (classDir (qtrans s.prev (phaseCode a b))).toList else [] := by
  rw [transitions, samplesOf, validDirs_cons]
  simp [samplesOf, validDirs, codes, classes]

/-- The history of a run is what its first operation adds and then the history of the rest. -/
theorem validDirs_samplesOf_cons {i : Instr} {s u : State} (hi : isReset i = false) (h : exec i s = .next u)
    (is : List Instr) :
    validDirs s.cfg s.prev (samplesOf (i :: is)) = transitions i s ++ validDirs u.cfg u.prev (samplesOf is) := by
  obtain ⟨hcfg, -, -, -, -, hframe⟩ := eachRegisterHasItsWriters i s u h
  cases he : isEdge i with
  | false =>
    obtain ⟨hedge, -⟩ := hframe hi
    obtain ⟨hprev, -⟩ := hedge he
    rw [transitions_of_not_edge he, samplesOf_cons_of_not_edge he, hcfg, hprev, List.nil_append]
  | true =>
    obtain ⟨a, b, an, bn, rfl⟩ := exists_of_isEdge he
    obtain ⟨-, rfl⟩ := execEdge_next.1 h
    rw [samplesOf, validDirs_cons, transitions_edge, hcfg]
    rcases decodeEdge_history a b an bn s with ⟨hrejected, hnext⟩ | ⟨haccepted, hprev, -⟩
    · simp [hrejected, hnext]
    · simp [haccepted, hprev]

/-- R100, in the terms of the history: an operation either adds no transition, and leaves DIR, with DCF but for FINISH and
TICK but for COUNT; or it is an EDGE that adds one, and writes DIR, DCF and TICK by it. -/
theorem exec_transitions {i : Instr} {s t : State} (hi : isReset i = false) (h : exec i s = .next t) :
    (transitions i s = [] ∧ t.dir = s.dir ∧ (isFinish i = false → t.dcf = s.dcf) ∧
      (isCount i = false → t.tick = s.tick)) ∨
    ∃ d, d ≠ .unknown ∧ transitions i s = [d] ∧ isEdge i = true ∧ t.dir = d ∧ t.dcf = dcfAfter s.dir d s.dcf ∧
      t.tick = wrap s.cfg.tickW (s.tick + 1) := by
  obtain ⟨-, -, -, -, -, hframe⟩ := eachRegisterHasItsWriters i s t h
  obtain ⟨hdecoder, -, -, -, -, -, -, -, htick, hdcf, -⟩ := hframe hi
  cases he : isEdge i with
  | false =>
    obtain ⟨-, hdir, -⟩ := hdecoder he
    exact .inl ⟨transitions_of_not_edge he s, hdir, hdcf he, htick he⟩
  | true =>
    obtain ⟨a, b, an, bn, rfl⟩ := exists_of_isEdge he
    obtain ⟨-, rfl⟩ := execEdge_next.1 h
    rw [transitions_edge]
    rcases decodeEdge_history a b an bn s with
      ⟨hrejected, hnext⟩ | ⟨haccepted, -, ⟨hclass, hdir, hdcf, htick⟩ | ⟨d, hd, hclass, hdir, hdcf, htick⟩⟩
    · left
      simp [hrejected, hnext]
    · left
      simp [haccepted, hclass, hdir, hdcf, htick]
    · right
      refine ⟨d, ?_, by simp [haccepted, hclass], rfl, hdir, hdcf, htick⟩
      rcases hd with rfl | rfl <;> decide

/-! ### DIR, DCF and TICK after a run -/

/-- Settles O17, by induction on the run: an operation that adds a transition gives DIR its direction, and every other leaves
DIR. -/
theorem directionOfLastValidTransition : Obligations.DirectionOfLastValidTransition := by
  intro ops s t hops h
  refine runOps_induction (motive := fun ops s t =>
    t.dir = (validDirs s.cfg s.prev (samplesOf ops)).getLast?.getD s.dir) (fun s => rfl) ?_ hops h
  intro i is s u t hi hu ih
  rw [Bool.not_eq_true'] at hi
  rw [ih, validDirs_samplesOf_cons hi hu]
  rcases exec_transitions hi hu with ⟨hnone, hdir, -⟩ | ⟨d, -, hone, -, hdir, -⟩
  · rw [hnone, hdir, List.nil_append]
  · rw [hone, hdir, List.singleton_append, List.getLast?_cons, Option.getD_some]

/-- R104: one more transition flips DIR if it is known and the other direction. -/
theorem dcfAfter_or_flips {d : Direction} (hd : d ≠ .unknown) (old : Direction) (dcf : Bool) (ds : List Direction) :
    (dcfAfter old d dcf || flips d ds) = (dcf || flips old (d :: ds)) := by
  cases d with
  | unknown => contradiction
  | cw | ccw => cases old <;> cases dcf <;> rfl

/-- Settles O18, by induction on the run: DCF and the flips still to come say the same before and after an operation that is
no FINISH. -/
theorem latchRecordsReversals : Obligations.LatchRecordsReversals := by
  intro ops s t hops h
  refine runOps_induction (motive := fun ops s t =>
    t.dcf = (s.dcf || flips s.dir (validDirs s.cfg s.prev (samplesOf ops)))) (fun s => ?_) ?_ hops h
  · exact (Bool.or_false s.dcf).symm
  · intro i is s u t hi hu ih
    rw [Bool.and_eq_true, Bool.not_eq_true', Bool.not_eq_true'] at hi
    rw [ih, validDirs_samplesOf_cons hi.1 hu]
    rcases exec_transitions hi.1 hu with ⟨hnone, hdir, hdcf, -⟩ | ⟨d, hd, hone, -, hdir, hdcf, -⟩
    · rw [hnone, hdir, hdcf hi.2, List.nil_append]
    · rw [hone, hdir, hdcf, List.singleton_append, dcfAfter_or_flips hd]

/-- R105: TICK, narrowed at every increment, is narrowed once in the end. -/
theorem tick_after_run {ops : List Instr} {s t : State} (hops : ops.all (fun i => !isReset i && !isCount i) = true)
    (h : runOps ops s = .next t) :
    t.tick % 2 ^ s.cfg.tickW =
        (s.tick + (validDirs s.cfg s.prev (samplesOf ops)).length) % 2 ^ s.cfg.tickW ∧
      (s.tick < 2 ^ s.cfg.tickW → t.tick < 2 ^ s.cfg.tickW) := by
  refine runOps_induction (motive := fun ops s t =>
    t.tick % 2 ^ s.cfg.tickW = (s.tick + (validDirs s.cfg s.prev (samplesOf ops)).length) % 2 ^ s.cfg.tickW ∧
      (s.tick < 2 ^ s.cfg.tickW → t.tick < 2 ^ s.cfg.tickW)) (fun s => ⟨rfl, id⟩) ?_ hops h
  intro i is s u t hi hu ih
  rw [Bool.and_eq_true, Bool.not_eq_true', Bool.not_eq_true'] at hi
  obtain ⟨hcfg, -⟩ := eachRegisterHasItsWriters i s u hu
  rw [validDirs_samplesOf_cons hi.1 hu]
  rw [hcfg] at ih ⊢
  rcases exec_transitions hi.1 hu with ⟨hnone, -, -, htick⟩ | ⟨d, -, hone, -, -, -, htick⟩
  · rw [hnone, List.nil_append]
    rwa [htick hi.2] at ih
  · rw [hone, List.singleton_append, List.length_cons]
    rw [htick, wrap, Nat.mod_add_mod] at ih
    refine ⟨by rw [ih.1]; congr 1; omega, fun _ => ih.2 (Nat.mod_lt _ (Nat.two_pow_pos _))⟩

/-- R105: a cycle in either direction passes through four valid transitions, with consistent complements at every
configuration. -/
theorem cycle_has_four_transitions (c : Config) :
    (validDirs c 0b00#2
      [⟨false, true, true, false⟩, ⟨true, true, false, false⟩, ⟨true, false, false, true⟩, ⟨false, false, true, true⟩]).length
      = 4 ∧
    (validDirs c 0b00#2
      [⟨true, false, false, true⟩, ⟨true, true, false, false⟩, ⟨false, true, true, false⟩, ⟨false, false, true, true⟩]).length
      = 4 := by
  obtain ⟨_, _, _, _, _, _, _, check⟩ := c
  cases check <;> exact ⟨rfl, rfl⟩

/-- Settles O19: TICK starts within its width and stays there, and the cycles are counted by the table. -/
theorem tickCountsValidTransitions : Obligations.TickCountsValidTransitions := by
  refine ⟨fun ops s t hlt hops h => ?_, cycle_has_four_transitions⟩
  obtain ⟨hmod, hwidth⟩ := tick_after_run hops h
  rw [← hmod, Nat.mod_eq_of_lt (hwidth hlt)]

/-- Settles O47: only an operation that adds a transition changes DIR, to the transition's known direction. -/
theorem knownDirectionStaysKnown : Obligations.KnownDirectionStaysKnown := by
  refine ⟨fun i s t hi h hne => ?_, fun ops s t hops hknown h => ?_⟩
  · rcases exec_transitions hi h with ⟨-, hdir, -⟩ | ⟨d, -, hone, hedge, hdir, -⟩
    · exact absurd hdir hne
    · obtain ⟨a, b, an, bn, rfl⟩ := exists_of_isEdge hedge
      refine ⟨a, b, an, bn, rfl, ?_⟩
      rw [transitions_edge] at hone
      split at hone
      · rwa [hdir, ← Option.toList_eq_singleton_iff]
      · cases hone
  · refine runOps_invariant (P := fun s => s.dir ≠ .unknown) (fun i s u hi hu hs => ?_) hops h hknown
    rw [Bool.not_eq_true'] at hi
    rcases exec_transitions hi hu with ⟨-, hdir, -⟩ | ⟨d, hd, -, -, hdir, -⟩
    · exact hdir ▸ hs
    · exact hdir ▸ hd

/-- Settles O21: the three ambiguous cases are those in which EDGE adds no transition, and one that it adds is of a known
direction. -/
theorem neverGuessADirection : Obligations.NeverGuessADirection := by
  intro a b an bn s hs
  have h := exec_edge_of_running hs a b an bn
  refine ⟨_, h, fun hambiguous => ?_, fun hunknown => ?_⟩
  · have hnone : transitions (.edge a b an bn) s = [] := by
      rw [transitions_edge]
      rcases hambiguous with hq | hq | hmismatch
      · simp [hq, classDir]
      · simp [hq, classDir]
      · simp [accepted_eq_false_iff.2 hmismatch]
    rcases exec_transitions rfl h with ⟨-, hdir, hdcf, htick⟩ | ⟨d, -, hone, -⟩
    · exact ⟨hdir, hdcf rfl, htick rfl⟩
    · simp [hnone] at hone
  · rcases decodeEdge_dir_cases a b an bn s with hsame | hknown
    · rw [← hsame, hunknown]
    · exact absurd hunknown hknown

/-! ### The decoder registers as a function of the samples -/

/-- The state that the EDGEs of a sequence of samples leave, one after another. -/
def edgesState (xs : List Sample) (s : State) : State := xs.foldl (fun s x => decodeEdge x.a x.b x.an x.bn s) s

/-- Two states agree on all that EDGE reads and writes: the configuration and the decoder registers (R102). -/
structure DecoderAgree (s s' : State) : Prop where
  cfg : s.cfg = s'.cfg
  prev : s.prev = s'.prev
  dir : s.dir = s'.dir
  dcf : s.dcf = s'.dcf
  tick : s.tick = s'.tick
  err : s.err = s'.err

theorem DecoderAgree.refl (s : State) : DecoderAgree s s := ⟨rfl, rfl, rfl, rfl, rfl, rfl⟩

theorem DecoderAgree.trans {s s' s'' : State} (h : DecoderAgree s s') (h' : DecoderAgree s' s'') : DecoderAgree s s'' :=
  ⟨h.cfg.trans h'.cfg, h.prev.trans h'.prev, h.dir.trans h'.dir, h.dcf.trans h'.dcf, h.tick.trans h'.tick,
    h.err.trans h'.err⟩

/-- R100: EDGE writes the decoder registers from the decoder registers, its sample and the configuration alone. -/
theorem decodeEdge_agree {s s' : State} (h : DecoderAgree s s') (a b an bn : Bool) :
    DecoderAgree (decodeEdge a b an bn s) (decodeEdge a b an bn s') := by
  obtain ⟨hcfg, hprev, hdir, hdcf, htick, herr⟩ := h
  unfold decodeEdge
  rw [hcfg, hprev]
  split
  · exact ⟨hcfg, hprev, hdir, hdcf, htick, by simp [hcfg, herr]⟩
  · split
    · exact ⟨rfl, rfl, hdir, hdcf, htick, herr⟩
    · exact ⟨rfl, rfl, hdir, hdcf, htick, by simp [herr]⟩
    · exact ⟨hcfg, rfl, by simp, by simp [hdir, hdcf], by simp [hcfg, htick], herr⟩
    · exact ⟨hcfg, rfl, by simp, by simp [hdir, hdcf], by simp [hcfg, htick], herr⟩

theorem edgesState_agree {s s' : State} (h : DecoderAgree s s') (xs : List Sample) :
    DecoderAgree (edgesState xs s) (edgesState xs s') := by
  induction xs generalizing s s' with
  | nil => exact h
  | cons x xs ih => exact ih (decodeEdge_agree h x.a x.b x.an x.bn)

/-- R102: a run leaves in the decoder registers what its samples alone leave there. -/
theorem run_agree_edgesState {ops : List Instr} {s t : State}
    (hops : ops.all (fun i => !isReset i && !isCount i && !isFinish i) = true) (h : runOps ops s = .next t) :
    DecoderAgree t (edgesState (samplesOf ops) s) := by
  refine runOps_induction (motive := fun ops s t => DecoderAgree t (edgesState (samplesOf ops) s))
    (fun s => DecoderAgree.refl s) ?_ hops h
  intro i is s u t hi hu ih
  rw [Bool.and_eq_true, Bool.and_eq_true, Bool.not_eq_true', Bool.not_eq_true', Bool.not_eq_true'] at hi
  obtain ⟨⟨hreset, hcount⟩, hfinish⟩ := hi
  cases he : isEdge i with
  | false =>
    obtain ⟨hcfg, -, -, -, -, hframe⟩ := eachRegisterHasItsWriters i s u hu
    obtain ⟨hdecoder, -, -, -, -, -, -, -, htick, hdcf, -⟩ := hframe hreset
    obtain ⟨hprev, hdir, herr⟩ := hdecoder he
    rw [samplesOf_cons_of_not_edge he]
    exact ih.trans (edgesState_agree ⟨hcfg, hprev, hdir, hdcf he hfinish, htick he hcount, herr⟩ (samplesOf is))
  | true =>
    obtain ⟨a, b, an, bn, rfl⟩ := exists_of_isEdge he
    obtain ⟨-, rfl⟩ := execEdge_next.1 hu
    exact ih

/-- Settles O20: each run agrees with its samples, and equal samples from states that agree leave states that agree. -/
theorem decoderIsAFunctionOfTheSamples : Obligations.DecoderIsAFunctionOfTheSamples := by
  intro ops ops' s s' t t' hcfg hprev hdir hdcf htick herr hops hops' hsamples h h'
  have hend : DecoderAgree (edgesState (samplesOf ops) s) (edgesState (samplesOf ops') s') :=
    hsamples ▸ edgesState_agree ⟨hcfg, hprev, hdir, hdcf, htick, herr⟩ (samplesOf ops)
  have hrun := (run_agree_edgesState hops h).trans hend
  have hrun' := run_agree_edgesState hops' h'
  exact ⟨hrun.prev.trans hrun'.prev.symm, hrun.dir.trans hrun'.dir.symm, hrun.dcf.trans hrun'.dcf.symm,
    hrun.tick.trans hrun'.tick.symm, hrun.err.trans hrun'.err.symm⟩

/-! ### Edge events -/

/-- R100: a second EDGE on the same levels is a transition of class NONE, which writes PREV its own value. -/
theorem decodeEdge_repeated {s : State} (hcheck : s.cfg.complementCheck = false) (a b an bn : Bool) :
    decodeEdge a b an bn (decodeEdge a b an bn s) = decodeEdge a b an bn s := by
  have haccepted : ∀ u : State, u.cfg = s.cfg → accepted u.cfg ⟨a, b, an, bn⟩ = true := by
    intro u hu
    simp [accepted, hu, hcheck]
  have hprev : (decodeEdge a b an bn s).prev = phaseCode a b := by
    rcases decodeEdge_history a b an bn s with ⟨hrejected, -⟩ | ⟨-, hprev, -⟩
    · simp [haccepted s rfl] at hrejected
    · exact hprev
  obtain ⟨hnone, -⟩ := decodeEdge_of_accepted (haccepted _ (decodeEdge_cfg a b an bn s))
  rw [hnone ((qtrans_eq_none_iff _ _).2 hprev), ← hprev]

/-- R206: the events of one change of levels are one EDGE repeated. -/
theorem serveAll_eq_replicate (n : Nat) (l : Levels) : serveAll n l = List.replicate n (sampleEdge l) := by
  induction n with
  | zero => rfl
  | succ n ih => rw [serveAll, ih, List.replicate_succ]

/-- EDGEs on levels whose EDGE changes nothing change nothing. -/
theorem runOps_serveAll_of_fixed {u : State} {l : Levels} (h : exec (sampleEdge l) u = .next u) (n : Nat) :
    runOps (serveAll n l) u = .next u := by
  induction n with
  | zero => rfl
  | succ n ih => exact runOps_cons_next.2 ⟨u, h, ih⟩

/-- R206: without the complement check, all the events after the first change nothing. -/
theorem runOps_serveAll {s : State} (hcheck : s.cfg.complementCheck = false) (hs : Running s) (l : Levels) (n : Nat) :
    runOps (serveAll (n + 1) l) s = exec (sampleEdge l) s := by
  have hfirst : exec (sampleEdge l) s = .next (decodeEdge l.qa l.qb l.qaN l.qbN s) :=
    exec_edge_of_running hs l.qa l.qb l.qaN l.qbN
  have hagain := exec_edge_of_running (s := decodeEdge l.qa l.qb l.qaN l.qbN s) (by simpa [Running] using hs)
    l.qa l.qb l.qaN l.qbN
  rw [decodeEdge_repeated hcheck] at hagain
  rw [hfirst]
  exact runOps_cons_next.2 ⟨_, hfirst, runOps_serveAll_of_fixed hagain n⟩

/-- R206: an event for each level that differs. -/
theorem edgeEvents_eq (l l' : Levels) :
    edgeEvents l l' = (if l.qa = l'.qa then 0 else 1) + (if l.qaN = l'.qaN then 0 else 1) +
      (if l.qb = l'.qb then 0 else 1) + (if l.qbN = l'.qbN then 0 else 1) := by
  have hbit : ∀ x y : Bool, (x != y).toNat = if x = y then 0 else 1 := by decide
  simp only [edgeEvents, hbit]

/-- Settles O22: repeated samples are of class NONE, and the events of the input side are counted by its equations. -/
theorem repeatedSamplesChangeNothing : Obligations.RepeatedSamplesChangeNothing := by
  refine ⟨fun n l s hcheck hs => runOps_serveAll hcheck hs l n, fun l l' k hk => ?_, fun n l =>
    ⟨serveAll_eq_replicate n l, rfl, rfl, rfl⟩⟩
  rw [← edgeEvents_eq] at hk
  subst hk
  exact ⟨fun ls => by rw [edgesOfLevels, serveAll_eq_replicate, sampleEdge], fun n => rfl⟩

end Sys2Proof.Proofs
end

section
/-! PROOFS. The binary32 arithmetic (00_scope.md section 5, R8): sums and products are correctly rounded, and differences,
comparisons and the absolute value are those of the exact values. -/

namespace Sys2Proof.Proofs

open Sys2Proof.Machine Sys2Proof.Laws

/-! ### A pattern from its sign and magnitude -/

/-- A pattern of infinite magnitude is the infinity of its sign (R83). -/
theorem eq_infinity {x : F32} (hmag : f32Mag x = infMag) :
    x = if f32Sign x = true then 0xFF800000#32 else 0x7F800000#32 := by
  cases hsign : f32Sign x with
  | true => exact f32_ext (hsign.trans (by decide)) (hmag.trans (by decide))
  | false => exact f32_ext (hsign.trans (by decide)) (hmag.trans (by decide))

/-- A pattern of magnitude 0 is the zero of its sign (R83). -/
theorem eq_zero_of_mag {x : F32} (hmag : f32Mag x = 0) :
    x = if f32Sign x = true then 0x80000000#32 else 0x00000000#32 := by
  cases hsign : f32Sign x with
  | true => exact f32_ext (hsign.trans (by decide)) (hmag.trans (by decide))
  | false => exact f32_ext (hsign.trans (by decide)) (hmag.trans (by decide))

/-- A finite number's value is its units under its sign. -/
theorem natAbs_f32Value (x : F32) : (f32Value x).natAbs = f32Units x := by
  rw [f32Value]
  split <;> omega

/-- A magnitude that is not finite but no more than that of infinity is that of infinity. -/
theorem mag_eq_infMag {x : F32} {n k : Nat} (hmag : f32Mag x = roundMag n k) (hx : f32IsFinite x = false) :
    roundMag n k = infMag := by
  have hle := roundMag_le_infMag n k
  rw [← Bool.not_eq_true, f32IsFinite_iff, hmag] at hx
  omega

/-- What rounding to the magnitude `roundMag n k` with a sign gives, in every clause the sum and the product share: `v` is the
exact value in units of 2^-(149 + k). -/
theorem rounded_spec {x : F32} {n k : Nat} {v : Int} (hmag : f32Mag x = roundMag n k)
    (hv : v = if f32Sign x then -(n : Int) else n) :
    (f32IsFinite x = true → ∀ c : F32, f32IsFinite c = true →
      |f32Value x * 2 ^ k - v| ≤ |f32Value c * 2 ^ k - v| ∧
      (|f32Value x * 2 ^ k - v| = |f32Value c * 2 ^ k - v| → f32Value c ≠ f32Value x → f32Mag x % 2 = 0)) ∧
    (f32IsFinite x = false ↔ (2 ^ 25 - 1) * 2 ^ 253 * 2 ^ k ≤ 2 * |v|) := by
  refine ⟨fun hx c _ => ?_, ?_⟩
  · rw [f32IsFinite_iff, hmag] at hx
    exact nearest_of_mag n k _ x c (hmag.trans (roundRaw_eq_of_lt hx).symm) rfl v hv
  · have habs : |v| = (n : Int) := by
      rw [hv]
      split
      · rw [abs_neg, Nat.abs_cast]
      · exact Nat.abs_cast n
    have hinf := roundMag_eq_infMag_iff (n := n) (k := k)
    have hle := roundMag_le_infMag n k
    rw [← Bool.not_eq_true, f32IsFinite_iff, hmag, habs]
    have hcast : ((2 ^ 25 - 1) * 2 ^ 253 * 2 ^ k : Int) = ((2 ^ 25 - 1) * 2 ^ 253 * 2 ^ k : Nat) := by norm_num
    rw [hcast]
    omega

/-! ### The sum -/

theorem roundValue_zero (z : Bool) : roundValue z 0 = f32Pack z 0 := rfl

/-- A rounded value that is not 0 has that value's sign. -/
theorem f32Sign_roundValue {z : Bool} {v : Int} (hv : v ≠ 0) : f32Sign (roundValue z v) = decide (v < 0) := by
  rw [roundValue, if_neg hv, f32Sign_pack]

/-- Settles O54: the sum is the exact value rounded (`rounded_spec`), and only an exact zero takes its sign from the
operands. -/
theorem sumIsCorrectlyRounded : Obligations.SumIsCorrectlyRounded := by
  intro a b ha hb v hv
  rw [f32Add_finite ha hb, ← hv]
  have hmag := f32Mag_roundValue (f32Sign a && f32Sign b) v
  have hsigned : v = if f32Sign (roundValue (f32Sign a && f32Sign b) v) then -(v.natAbs : Int) else v.natAbs := by
    by_cases hz : v = 0
    · simp [hz]
    · rw [f32Sign_roundValue hz]
      by_cases hneg : v < 0
      · simp [hneg, abs_of_neg]
      · simp [hneg, abs_of_nonneg (not_lt.1 hneg)]
  obtain ⟨hnear, hfinite⟩ := rounded_spec hmag hsigned
  simp only [pow_zero, mul_one] at hnear hfinite
  have hinfinity : f32IsFinite (roundValue (f32Sign a && f32Sign b) v) = false →
      roundValue (f32Sign a && f32Sign b) v = if v < 0 then 0xFF800000#32 else 0x7F800000#32 := by
    intro hinf
    have hroundInf := mag_eq_infMag hmag hinf
    have hz : v ≠ 0 := by
      rintro rfl
      simp [infMag] at hroundInf
    rw [eq_infinity (hmag.trans hroundInf), f32Sign_roundValue hz]
    simp
  refine ⟨hnear, fun hinf => ⟨hinfinity hinf, hfinite.1 hinf⟩, fun hbig => hinfinity (hfinite.2 hbig), ?_⟩
  intro hz
  rw [eq_zero_of_mag (x := roundValue _ v) (by rw [hmag, hz]; simp), hz, roundValue_zero, f32Sign_pack]
  simp

/-! ### The product -/

/-- Settles O55: the product is the exact magnitude rounded under the product of the signs (`rounded_spec`). -/
theorem productIsCorrectlyRounded : Obligations.ProductIsCorrectlyRounded := by
  intro a b ha hb v hv
  have hmul := f32Mul_finite ha hb
  have hsign : f32Sign (f32Mul a b) = (f32Sign a != f32Sign b) := by rw [hmul, f32Sign_pack]
  have hmag : f32Mag (f32Mul a b) = roundMag (f32Units a * f32Units b) 149 := by
    rw [hmul, f32Mag_pack, Nat.mod_eq_of_lt (roundMag_lt _ _)]
  have hsigned : v = if f32Sign (f32Mul a b) then -((f32Units a * f32Units b : Nat) : Int)
      else (f32Units a * f32Units b : Nat) := by
    rw [hv, hsign, f32Value, f32Value]
    cases f32Sign a <;> cases f32Sign b <;> simp
  obtain ⟨hnear, hfinite⟩ := rounded_spec hmag hsigned
  refine ⟨hsign, hnear, fun hinf => ⟨hmag.trans (mag_eq_infMag hmag hinf), hfinite.1 hinf⟩, fun hbig => ?_⟩
  rw [eq_infinity (hmag.trans (mag_eq_infMag hmag (hfinite.2 hbig))), hsign]
  cases f32Sign a <;> cases f32Sign b <;> rfl

/-! ### Differences, comparisons and the absolute value -/

/-- R8: `f32_gt` on finite numbers is the order of the exact values. -/
theorem f32Gt_iff_value_lt {a b : F32} (ha : f32IsFinite a = true) (hb : f32IsFinite b = true) :
    f32Gt a b = true ↔ f32Value b < f32Value a := by
  rw [f32Gt_iff (not_nan_of_finite ha) (not_nan_of_finite hb), ← not_le, ← not_le, f32Key_le_iff]

theorem f32Value_abs {a : F32} : f32Value (f32Abs a) = |f32Value a| := by
  rw [f32Value, f32Sign_abs, f32Units_eq, f32Mag_abs, ← f32Units_eq, ← natAbs_f32Value]
  exact Int.natCast_natAbs _

/-- The order of a number and the infinities (R8). -/
theorem infinity_comparisons {a : F32} (ha : f32IsNaN a = false) :
    f32Le a 0x7F800000#32 = true ∧ f32Le 0xFF800000#32 a = true ∧
    (f32Le 0x7F800000#32 a = true ↔ a = 0x7F800000#32) ∧ (f32Le a 0xFF800000#32 = true ↔ a = 0xFF800000#32) ∧
    (f32Gt 0x7F800000#32 a = true ↔ a ≠ 0x7F800000#32) ∧ (f32Gt a 0xFF800000#32 = true ↔ a ≠ 0xFF800000#32) ∧
    f32Gt a 0x7F800000#32 = false ∧ f32Gt 0xFF800000#32 a = false := by
  obtain ⟨hpos, hneg, hposNum, hnegNum⟩ := f32Key_infinity
  obtain ⟨hlo, hhi, htop, hbot⟩ := f32Key_bounds ha
  rw [← Bool.not_eq_true (f32Gt a _), ← Bool.not_eq_true (f32Gt _ a), f32Le_iff ha hposNum, f32Le_iff hnegNum ha,
    f32Le_iff hposNum ha, f32Le_iff ha hnegNum, f32Gt_iff hposNum ha, f32Gt_iff ha hnegNum, f32Gt_iff ha hposNum,
    f32Gt_iff hnegNum ha, hpos, hneg, Ne, Ne, ← htop, ← hbot]
  omega

/-- Settles O56: each clause is the lemma of its primitive; the infinities are the ends of the order on patterns. -/
theorem differenceAndComparisons : Obligations.DifferenceAndComparisons := by
  refine ⟨fun a b => ⟨rfl, fun _ => f32Value_neg b⟩,
    fun a b ha hb => ⟨f32Le_iff_value_le ha hb, f32Gt_iff_value_lt ha hb⟩, fun a ha => infinity_comparisons ha,
    fun a b hnan => ?_, fun a => ⟨f32Sign_abs a, f32Mag_abs a, fun _ => f32Value_abs⟩, by decide⟩
  rcases hnan with hnan | hnan <;> simp [f32Le, f32Gt, hnan]

end Sys2Proof.Proofs
end

section
/-! PROOFS. The ramp over a step and over runs (41_ramp.md section 3): CV stays finite and between its old value and the target
(R134), a step of size 0 freezes it (R135), a reached target is held (R136), and the velocity command is +0.0 until a target is
written (70_reset_and_hazards.md section 2). -/

namespace Sys2Proof.Proofs

open Sys2Proof.Machine Sys2Proof.Safety Sys2Proof.Laws

/-! ### Keys of numbers -/

/-- The finite numbers are those strictly between the infinities. -/
theorem f32IsFinite_iff_key (x : F32) : f32IsFinite x = true ↔ -(infMag : Int) < f32Key x ∧ f32Key x < infMag := by
  rw [f32IsFinite_iff, f32Key]
  split <;> omega

/-- The sign of a key is the sign of the value. -/
theorem f32Key_nonneg_iff (x : F32) : 0 ≤ f32Key x ↔ 0 ≤ f32Value x := f32Key_le_iff 0x00000000#32 x

theorem between_iff {a x b : F32} (ha : f32IsFinite a = true) (hx : f32IsFinite x = true) (hb : f32IsFinite b = true) :
    Between a x b ↔
      (f32Key a ≤ f32Key x ∧ f32Key x ≤ f32Key b) ∨ (f32Key b ≤ f32Key x ∧ f32Key x ≤ f32Key a) := by
  have hna := not_nan_of_finite ha
  have hnx := not_nan_of_finite hx
  have hnb := not_nan_of_finite hb
  rw [Between, f32Le_iff hna hnx, f32Le_iff hnx hnb, f32Le_iff hnb hnx, f32Le_iff hnx hna]

/-- A pattern whose key lies between those of two finite numbers is finite and between them. -/
theorem finite_and_between {a x b : F32} (ha : f32IsFinite a = true) (hb : f32IsFinite b = true)
    (h : (f32Key a ≤ f32Key x ∧ f32Key x ≤ f32Key b) ∨ (f32Key b ≤ f32Key x ∧ f32Key x ≤ f32Key a)) :
    f32IsFinite x = true ∧ Between a x b := by
  have hx : f32IsFinite x = true := by
    rw [f32IsFinite_iff_key] at ha hb ⊢
    omega
  exact ⟨hx, (between_iff ha hx hb).2 h⟩

/-! ### One step of the ramp -/

/-- R130, R131: at a legal configuration and with well-formed inputs the step size is a number not below 0, an infinity
included. -/
theorem rampMax_of_inputs {s : State} (hc : configLegal s.cfg = true) (hinputs : rampInputsOk s.tv s.ta = true) :
    f32IsNaN (rampMax s) = false ∧ 0 ≤ f32Key (rampMax s) := by
  obtain ⟨-, -, hdt, hpos, -⟩ := (configLegal_iff s.cfg).1 hc
  rw [rampInputsOk, Bool.and_eq_true, Bool.and_eq_true] at hinputs
  obtain ⟨⟨-, hta⟩, hle⟩ := hinputs
  exact rampMax_nonneg hdt hpos hta hle

/-- R130: between finite numbers the error is their exact difference rounded, an infinity included. -/
theorem rampErr_of_finite {s : State} (htv : f32IsFinite s.tv = true) (hcv : f32IsFinite s.cv = true) :
    f32Key (rampErr s) = (if f32Value s.tv - f32Value s.cv < 0
        then -(roundMag (f32Value s.tv - f32Value s.cv).natAbs 0 : Int)
        else (roundMag (f32Value s.tv - f32Value s.cv).natAbs 0 : Int)) ∧
      f32Key (f32Abs (rampErr s)) = roundMag (f32Value s.tv - f32Value s.cv).natAbs 0 ∧
      f32IsNaN (rampErr s) = false := by
  rw [rampErr, f32Sub_finite htv hcv, f32Key_abs, f32Mag_roundValue, f32Key_roundValue]
  exact ⟨rfl, rfl, roundValue_not_nan _ _⟩

/-- A finite number whose key is below a rounded distance is below the distance itself: rounding keeps order. -/
theorem value_lt_of_key_lt_roundMag {m : F32} (hm : f32IsFinite m = true) {n : Nat} (h : f32Key m < roundMag n 0) :
    f32Value m < n := by
  by_contra hge
  have hround := f32Key_roundValue_mono false false (not_lt.1 hge)
  rw [f32Key_roundValue_value false hm, f32Key_roundValue, if_neg (by omega), Int.natAbs_natCast] at hround
  omega

/-- R130 on finite numbers: RAMP reaches the target, or the step size is finite and smaller than the exact distance, and CV
moves by it toward the target. -/
theorem rampNext_cases {s : State} (hc : configLegal s.cfg = true) (hinputs : rampInputsOk s.tv s.ta = true)
    (hcv : f32IsFinite s.cv = true) :
    (f32Le (f32Abs (rampErr s)) (rampMax s) = true ∧ rampNext s = s.tv) ∨
    (f32IsFinite (rampMax s) = true ∧ 0 ≤ f32Value (rampMax s) ∧
      ((f32Value (rampMax s) < f32Value s.tv - f32Value s.cv ∧ rampNext s = f32Add s.cv (rampMax s)) ∨
       (f32Value (rampMax s) < f32Value s.cv - f32Value s.tv ∧ rampNext s = f32Sub s.cv (rampMax s)))) := by
  obtain ⟨hmnan, hmpos⟩ := rampMax_of_inputs hc hinputs
  obtain ⟨htv, -⟩ := rampInputsOk_iff.1 hinputs
  obtain ⟨herr, habs, henan⟩ := rampErr_of_finite htv hcv
  by_cases hle : f32Le (f32Abs (rampErr s)) (rampMax s) = true
  · exact .inl ⟨hle, by rw [rampNext, if_pos hle]⟩
  right
  have hlt : f32Key (rampMax s) < roundMag (f32Value s.tv - f32Value s.cv).natAbs 0 := by
    rwa [f32Le_iff (by rwa [f32IsNaN_abs]) hmnan, habs, not_le] at hle
  have hmfin : f32IsFinite (rampMax s) = true := by
    have hround := roundMag_le_infMag (f32Value s.tv - f32Value s.cv).natAbs 0
    have hpos : 0 < infMag := by decide
    rw [f32IsFinite_iff_key]
    omega
  have hmval : 0 ≤ f32Value (rampMax s) := (f32Key_nonneg_iff _).1 hmpos
  have hstep := value_lt_of_key_lt_roundMag hmfin hlt
  have hgt : f32Gt (rampErr s) 0x00000000#32 = true ↔ 0 ≤ f32Value s.tv - f32Value s.cv := by
    have hzero : f32Key 0x00000000#32 = 0 := by decide
    rw [f32Gt_iff henan (by decide), hzero, herr]
    split <;> omega
  refine ⟨hmfin, hmval, ?_⟩
  rw [rampNext, if_neg hle]
  by_cases hup : 0 ≤ f32Value s.tv - f32Value s.cv
  · rw [if_pos (hgt.2 hup)]
    exact .inl ⟨by omega, rfl⟩
  · rw [if_neg (fun h => hup (hgt.1 h))]
    exact .inr ⟨by omega, rfl⟩

/-- R134: the new CV is finite and between the old one and the target, because rounding keeps order and both ends are binary32
numbers. -/
theorem rampNext_between {s : State} (hc : configLegal s.cfg = true) (hinputs : rampInputsOk s.tv s.ta = true)
    (hcv : f32IsFinite s.cv = true) : f32IsFinite (rampNext s) = true ∧ Between s.cv (rampNext s) s.tv := by
  obtain ⟨htv, -⟩ := rampInputsOk_iff.1 hinputs
  refine finite_and_between hcv htv ?_
  rcases rampNext_cases hc hinputs hcv with ⟨-, hnext⟩ | ⟨hmfin, hmval, ⟨hstep, hnext⟩ | ⟨hstep, hnext⟩⟩
  · rw [hnext]
    omega
  · left
    rw [hnext, f32Add_finite hcv hmfin, ← f32Key_roundValue_value false hcv, ← f32Key_roundValue_value false htv]
    exact ⟨f32Key_roundValue_mono _ _ (by omega), f32Key_roundValue_mono _ _ (by omega)⟩
  · right
    rw [hnext, f32Sub_finite hcv hmfin, ← f32Key_roundValue_value false hcv, ← f32Key_roundValue_value false htv]
    exact ⟨f32Key_roundValue_mono _ _ (by omega), f32Key_roundValue_mono _ _ (by omega)⟩

/-! ### The ramp over runs -/

/-- R134 for every operation but RESET and SETV: those that do not write CV leave it where it was. -/
theorem exec_cv_between {i : Instr} {s t : State} (hc : configLegal s.cfg = true) (hcv : f32IsFinite s.cv = true)
    (htv : f32IsFinite s.tv = true) (hi : isReset i = false) (h : exec i s = .next t) :
    f32IsFinite t.cv = true ∧ Between s.cv t.cv s.tv := by
  by_cases hramp : i = .ramp
  · subst hramp
    obtain ⟨-, -, hinputs, rfl⟩ := execRamp_next.1 h
    exact rampNext_between hc hinputs hcv
  · obtain ⟨-, -, -, -, -, hframe⟩ := eachRegisterHasItsWriters i s t h
    obtain ⟨-, -, -, hkeep, -⟩ := hframe hi
    rw [hkeep hramp]
    exact finite_and_between hcv htv (by omega)

/-- Settles O28: a RAMP stays between the old CV and TV, and so does each operation of a run, which leaves TV where it was. -/
theorem noOvershoot : Obligations.NoOvershoot := by
  refine ⟨fun s hc hs hp hinputs hcv => ⟨_, execRamp_next.2 ⟨hs, hp, hinputs, rfl⟩, rampNext_between hc hinputs hcv⟩, ?_⟩
  intro ops s t hc hcv htv hops h
  refine runOps_induction (motive := fun _ s t => configLegal s.cfg = true → f32IsFinite s.cv = true →
    f32IsFinite s.tv = true → f32IsFinite t.cv = true ∧ Between s.cv t.cv s.tv)
    (fun s _ hcv htv => finite_and_between hcv htv (by omega)) ?_ hops h hc hcv htv
  intro i is s u t hi hu ih hc hcv htv
  obtain ⟨hcfg, -⟩ := eachRegisterHasItsWriters i s u hu
  have hsame := exec_tv_of_not_setv hi hu
  rw [Bool.and_eq_true, Bool.not_eq_true'] at hi
  obtain ⟨hufin, hub⟩ := exec_cv_between hc hcv htv hi.1 hu
  obtain ⟨htfin, htb⟩ := ih (hcfg ▸ hc) hufin (hsame ▸ htv)
  rw [hsame] at htb
  rw [between_iff hcv hufin htv] at hub
  rw [between_iff hufin htfin htv] at htb
  exact finite_and_between hcv htv (by omega)

/-- RESET loads +0.0 into CV and TV (R230). -/
theorem exec_cv_tv_of_reset {i : Instr} {s t : State} (hi : isReset i = true) (h : exec i s = .next t) :
    t.cv = 0x00000000#32 ∧ t.tv = 0x00000000#32 := by
  cases i with
  | reset a b =>
    obtain ⟨-, rfl⟩ := execReset_next.1 h
    exact ⟨rfl, rfl⟩
  | edge | setv | seta | ramp | count | finish => cases hi

/-- R21: only RAMP and RESET write CV. -/
theorem exec_cv_of_not_ramp {i : Instr} {s t : State} (hi : isReset i = false) (hramp : i ≠ .ramp)
    (h : exec i s = .next t) : t.cv = s.cv := by
  obtain ⟨-, -, -, -, -, hframe⟩ := eachRegisterHasItsWriters i s t h
  obtain ⟨-, -, -, hkeep, -⟩ := hframe hi
  exact hkeep hramp

/-- Settles O51: RESET loads +0.0, RAMP's new CV is finite, and no other operation writes CV. -/
theorem stepKeepsVelocityFinite : Obligations.StepKeepsVelocityFinite := by
  intro s t hfinite h _
  obtain ⟨hc, i, rest, -, hexec⟩ := step_next h
  cases hi : isReset i with
  | true =>
    rw [(exec_cv_tv_of_reset hi hexec).1]
    decide
  | false =>
    obtain ⟨hon, -⟩ := running_of_exec hi hexec
    by_cases hramp : i = .ramp
    · subst hramp
      obtain ⟨-, -, hinputs, rfl⟩ := execRamp_next.1 hexec
      exact (rampNext_between (s := advance rest s) hc hinputs (hfinite hon)).1
    · rw [exec_cv_of_not_ramp hi hramp hexec]
      exact hfinite hon

/-! ### A target once reached -/

/-- R136: when CV is the target's pattern the error is a zero, which no step size is below. -/
theorem rampNext_of_reached {s : State} (hc : configLegal s.cfg = true) (hinputs : rampInputsOk s.tv s.ta = true)
    (hcv : s.cv = s.tv) : rampNext s = s.tv := by
  obtain ⟨htv, -⟩ := rampInputsOk_iff.1 hinputs
  obtain ⟨hmnan, hmpos⟩ := rampMax_of_inputs hc hinputs
  obtain ⟨-, habs, henan⟩ := rampErr_of_finite htv (hcv ▸ htv)
  have hle : f32Le (f32Abs (rampErr s)) (rampMax s) = true := by
    rw [f32Le_iff (by rwa [f32IsNaN_abs]) hmnan, habs, hcv]
    simpa using hmpos
  rw [rampNext, if_pos hle]

/-- From 2^24 on a step of 1.0 is half a unit, and the tie goes back to the even CV. -/
theorem rampNext_at_bound {s : State} (hdt : s.cfg.dt = 0x3F800000#32) (hta : s.ta = 0x3F800000#32)
    (hcv : s.cv = 0x4B800000#32) (htv : s.tv = 0x4C000000#32) : rampNext s = s.cv := by
  have hm : f32Mul 0x3F800000#32 0x3F800000#32 = 0x3F800000#32 := by decide +kernel
  have hsum : f32Add 0x4B800000#32 0x3F800000#32 = 0x4B800000#32 := by decide
  rw [rampNext, rampErr, rampMax, hdt, hta, hcv, htv, hm, if_neg (by decide), if_pos (by decide), hsum]

/-- Settles O30: in both cases the new CV is the pattern that CV has. -/
theorem targetHeldAndBoundFails : Obligations.TargetHeldAndBoundFails := by
  refine ⟨fun s hc hs hp hinputs hcv => ?_, fun s hs hp hdt hta hcv htv => ?_⟩
  · exact execRamp_next.2 ⟨hs, hp, hinputs, by rw [rampNext_of_reached hc hinputs hcv, hcv]⟩
  · have hinputs : rampInputsOk s.tv s.ta = true := by
      rw [htv, hta]
      decide
    exact execRamp_next.2 ⟨hs, hp, hinputs, by rw [rampNext_at_bound hdt hta hcv htv]⟩

/-- While TV and CV are +0.0, every operation but SETV leaves them so. -/
theorem exec_keeps_zero_target {i : Instr} {s t : State} (hc : configLegal s.cfg = true) (hcv : s.cv = 0x00000000#32)
    (htv : s.tv = 0x00000000#32) (hi : isSetv i = false) (h : exec i s = .next t) :
    t.cv = 0x00000000#32 ∧ t.tv = 0x00000000#32 := by
  cases hreset : isReset i with
  | true => exact exec_cv_tv_of_reset hreset h
  | false =>
    have hkeep : t.tv = s.tv := exec_tv_of_not_setv (by simp [hreset, hi]) h
    refine ⟨?_, hkeep.trans htv⟩
    by_cases hramp : i = .ramp
    · subst hramp
      obtain ⟨-, -, hinputs, rfl⟩ := execRamp_next.1 h
      exact (rampNext_of_reached hc hinputs (hcv.trans htv.symm)).trans htv
    · rw [exec_cv_of_not_ramp hreset hramp h, hcv]

/-- Settles O13: RESET loads +0.0 into CV and TV, and until a SETV every RAMP holds the target it has reached. -/
theorem velocityZeroUntilTargetWritten : Obligations.VelocityZeroUntilTargetWritten := by
  intro a b s0 s t ops hc hreset hops h
  obtain ⟨hcfg, -⟩ := eachRegisterHasItsWriters _ s0 s hreset
  obtain ⟨hcv, htv⟩ := exec_cv_tv_of_reset rfl hreset
  obtain ⟨-, hend, -⟩ := runOps_invariant
    (P := fun s => configLegal s.cfg = true ∧ s.cv = 0x00000000#32 ∧ s.tv = 0x00000000#32)
    (fun i s u hi hu ⟨hc, hcv, htv⟩ => by
      rw [Bool.not_eq_true'] at hi
      obtain ⟨hcfg, -⟩ := eachRegisterHasItsWriters i s u hu
      exact ⟨hcfg ▸ hc, exec_keeps_zero_target hc hcv htv hi hu⟩)
    hops h ⟨hcfg ▸ hc, hcv, htv⟩
  exact hend

/-! ### A step of size 0 -/

/-- A magnitude of 0 is one of the two zeros (R83). -/
theorem eq_zero_or_eq_neg_zero {x : F32} (hmag : f32Mag x = 0) : x = 0x00000000#32 ∨ x = 0x80000000#32 := by
  have hx := eq_zero_of_mag hmag
  split at hx
  · exact .inr hx
  · exact .inl hx

theorem f32Value_eq_zero_iff (x : F32) : f32Value x = 0 ↔ f32Mag x = 0 := by
  rw [← Int.natAbs_eq_zero, natAbs_f32Value, f32Units_eq, unitsOfMag_eq_zero]

/-- R8: rounding the exact value of a finite number gives back its pattern, a zero apart. -/
theorem roundValue_f32Value {x : F32} (hx : f32IsFinite x = true) (z : Bool) :
    roundValue z (f32Value x) = if f32Mag x = 0 then f32Pack z 0 else x := by
  by_cases hmag : f32Mag x = 0
  · rw [if_pos hmag, (f32Value_eq_zero_iff x).2 hmag, roundValue_zero]
  · have hvalue : f32Value x ≠ 0 := fun h => hmag ((f32Value_eq_zero_iff x).1 h)
    rw [if_neg hmag]
    refine f32_ext ?_ ?_
    · have hunits : f32Units x ≠ 0 := by rwa [← natAbs_f32Value, Int.natAbs_ne_zero]
      rw [f32Sign_roundValue hvalue, f32Value]
      cases f32Sign x
      · simp
      · simp only [if_true, decide_eq_true_eq]
        omega
    · rw [f32Mag_roundValue, natAbs_f32Value, f32Units_eq, roundMag_unitsOfMag ((f32IsFinite_iff x).1 hx).le]

/-- R83: a number that is not 0 rounds to a magnitude that is not 0, since values count whole units. -/
theorem one_le_roundMag {n : Nat} (hn : n ≠ 0) : 1 ≤ roundMag n 0 := by
  have hone : roundMag 1 0 = 1 := by decide
  calc 1 = roundMag 1 0 := hone.symm
    _ ≤ roundMag n 0 := roundMag_mono (Nat.one_le_iff_ne_zero.2 hn) 0

/-- R135: the sum of two zeros is -0 only if both are. -/
theorem f32Add_zeros {a b : F32} (ha : f32Mag a = 0) (hb : f32Mag b = 0) :
    f32Add a b = if a = 0x80000000#32 ∧ b = 0x00000000#32 then 0x00000000#32 else a := by
  rcases eq_zero_or_eq_neg_zero ha with rfl | rfl <;> rcases eq_zero_or_eq_neg_zero hb with rfl | rfl <;> decide

/-- R135: the difference of two zeros is -0 only if the second is +0 and the first -0. -/
theorem f32Sub_zeros {a b : F32} (ha : f32Mag a = 0) (hb : f32Mag b = 0) :
    f32Sub a b = if a = 0x80000000#32 ∧ b = 0x80000000#32 then 0x00000000#32 else a := by
  rcases eq_zero_or_eq_neg_zero ha with rfl | rfl <;> rcases eq_zero_or_eq_neg_zero hb with rfl | rfl <;> decide

/-- R135: with a step of size 0 and the target elsewhere, CV takes the sum or difference of itself and a zero, which is its own
pattern but for a -0 that the sign rule of R135 makes +0. -/
theorem rampNext_of_zero_step {s : State} (hc : configLegal s.cfg = true) (hinputs : rampInputsOk s.tv s.ta = true)
    (hcv : f32IsFinite s.cv = true) (hm : f32Mag (rampMax s) = 0) (hne : f32Value s.tv ≠ f32Value s.cv) :
    rampNext s =
      if s.cv = 0x80000000#32 ∧ ((0 < f32Value s.tv ∧ rampMax s = 0x00000000#32) ∨
          (f32Value s.tv < 0 ∧ rampMax s = 0x80000000#32))
      then 0x00000000#32 else s.cv := by
  obtain ⟨htv, -⟩ := rampInputsOk_iff.1 hinputs
  have hmvalue : f32Value (rampMax s) = 0 := (f32Value_eq_zero_iff _).2 hm
  rcases rampNext_cases hc hinputs hcv with ⟨hle, -⟩ | ⟨hmfin, -, hdir⟩
  · exfalso
    obtain ⟨hmnan, -⟩ := rampMax_of_inputs hc hinputs
    obtain ⟨-, habs, henan⟩ := rampErr_of_finite htv hcv
    have hmkey : f32Key (rampMax s) = 0 := by simp [f32Key, hm]
    have hround := one_le_roundMag (n := (f32Value s.tv - f32Value s.cv).natAbs) (by omega)
    rw [f32Le_iff (by rwa [f32IsNaN_abs]) hmnan, habs, hmkey] at hle
    omega
  · rw [hmvalue] at hdir
    by_cases hzero : f32Mag s.cv = 0
    · have hcvvalue : f32Value s.cv = 0 := (f32Value_eq_zero_iff _).2 hzero
      rw [hcvvalue, sub_zero, zero_sub, Left.neg_pos_iff] at hdir
      rcases hdir with ⟨hup, hnext⟩ | ⟨hdown, hnext⟩
      · rw [hnext, f32Add_zeros hzero hm]
        simp [hup, hup.not_gt]
      · rw [hnext, f32Sub_zeros hzero hm]
        simp [hdown, hdown.not_gt]
    · have hsame : rampNext s = s.cv := by
        rcases hdir with ⟨-, hnext⟩ | ⟨-, hnext⟩
        · rw [hnext, f32Add_finite hcv hmfin, hmvalue, add_zero, roundValue_f32Value hcv, if_neg hzero]
        · rw [hnext, f32Sub_finite hcv hmfin, hmvalue, sub_zero, roundValue_f32Value hcv, if_neg hzero]
      have hnegzero : s.cv ≠ 0x80000000#32 := fun h => hzero (h ▸ by decide)
      rw [hsame, if_neg (fun h => hnegzero h.1)]

/-- R135: such a RAMP leaves the number CV holds. -/
theorem f32Value_rampNext_of_zero_step {s : State} (hc : configLegal s.cfg = true)
    (hinputs : rampInputsOk s.tv s.ta = true) (hcv : f32IsFinite s.cv = true) (hm : f32Mag (rampMax s) = 0)
    (hne : f32Value s.tv ≠ f32Value s.cv) : f32Value (rampNext s) = f32Value s.cv := by
  rw [rampNext_of_zero_step hc hinputs hcv hm hne]
  split
  · next h =>
    rw [h.1]
    decide
  · rfl

/-- R135: a zero acceleration makes a step of size 0. -/
theorem f32Mag_mul_of_zero {a b : F32} (ha : f32Mag a = 0) (hb : f32IsFinite b = true) : f32Mag (f32Mul a b) = 0 := by
  have hfinite : f32IsFinite a = true := by
    rw [f32IsFinite_iff, ha]
    decide
  have hunits : f32Units a = 0 := by rw [f32Units_eq, unitsOfMag_eq_zero, ha]
  rw [f32Mul_finite hfinite hb, hunits, Nat.zero_mul, roundMag_zero, f32Mag_pack, Nat.zero_mod]

/-- Settles O29: the step of a frozen ramp, and by induction a run of it, in which TV, TA and DT stay and CV's number does. -/
theorem frozenRamp : Obligations.FrozenRamp := by
  refine ⟨fun s hc hs hp hinputs hcv hm hne => execRamp_next.2 ⟨hs, hp, hinputs, ?_⟩, ?_, fun s hc hta => ?_⟩
  · rw [rampNext_of_zero_step hc hinputs hcv hm hne, rampMax]
  · intro ops s t hc hcv htv _ hm hne hops h
    refine runOps_induction (motive := fun _ s t => configLegal s.cfg = true → f32IsFinite s.cv = true →
      f32IsFinite s.tv = true → f32Mag (rampMax s) = 0 → f32Value s.tv ≠ f32Value s.cv → f32Value t.cv = f32Value s.cv)
      (fun _ _ _ _ _ _ => rfl) ?_ hops h hc hcv htv hm hne
    intro i is s u t hi hu ih hc hcv htv hm hne
    rw [Bool.and_eq_true, Bool.and_eq_true] at hi
    obtain ⟨⟨hreset, hsetv⟩, hseta⟩ := hi
    obtain ⟨hcfg, -⟩ := eachRegisterHasItsWriters i s u hu
    have htvSame := exec_tv_of_not_setv (by simp only [hreset, hsetv, Bool.and_self]) hu
    have htaSame := exec_ta_of_not_seta (by simp only [hreset, hseta, Bool.and_self]) hu
    rw [Bool.not_eq_true'] at hreset
    have hvalue : f32Value u.cv = f32Value s.cv := by
      by_cases hramp : i = .ramp
      · subst hramp
        obtain ⟨-, -, hinputs, rfl⟩ := execRamp_next.1 hu
        exact f32Value_rampNext_of_zero_step hc hinputs hcv hm hne
      · rw [exec_cv_of_not_ramp hreset hramp hu]
    obtain ⟨hucv, -⟩ := exec_cv_between hc hcv htv hreset hu
    rw [rampMax, ← htaSame, ← hcfg] at hm
    rw [← hvalue, ← htvSame] at hne
    rw [ih (hcfg ▸ hc) hucv (htvSame ▸ htv) hm hne, hvalue]
  · obtain ⟨-, -, hdt, -⟩ := (configLegal_iff s.cfg).1 hc
    exact f32Mag_mul_of_zero hta hdt

end Sys2Proof.Proofs
end

section
/-! PROOFS. The reporter over runs (42_reporter.md section 3): ITER in the window (10_state.md R31), the number of reports (R164),
ticks conserved (R165), windows that last INTERVAL (R166), dropped records (R163, R168), and reports that keep falling due
(R169, 20_memory.md R65). -/

namespace Sys2Proof.Proofs

open Sys2Proof.Machine Sys2Proof.Safety Sys2Proof.Laws

/-! ### ITER and PHASE -/

/-- R21: no operation writes the configuration. -/
theorem runOps_cfg {ops : List Instr} {s t : State} (h : runOps ops s = .next t) : t.cfg = s.cfg :=
  runOps_keeps (f := State.cfg) (kind := fun _ => true)
    (fun i s t _ h => by
      obtain ⟨hcfg, -⟩ := eachRegisterHasItsWriters i s t h
      exact hcfg)
    (by simp) h

/-- `iterOk` reads ITER, PHASE and INTERVAL. -/
theorem iterOk_of_eq {s t : State} (hs : iterOk s) (hcfg : t.cfg = s.cfg) (hphase : t.phase = s.phase)
    (hiter : t.iter = s.iter) : iterOk t := by
  rwa [iterOk, hcfg, hphase, hiter]

/-- R31: every operation leaves ITER as PHASE says, RESET from any state. -/
theorem exec_keeps_iterOk {i : Instr} {s t : State} (hpos : 1 ≤ s.cfg.interval) (hs : s.started = true → iterOk s)
    (h : exec i s = .next t) : iterOk t := by
  cases i with
  | reset a b =>
    obtain ⟨-, rfl⟩ := execReset_next.1 h
    exact ⟨by simp, fun _ => hpos⟩
  | edge a b an bn =>
    obtain ⟨⟨hon, -⟩, rfl⟩ := execEdge_next.1 h
    exact iterOk_of_eq (hs hon) (by simp) (by simp) (by simp)
  | setv v =>
    obtain ⟨⟨hon, -⟩, rfl⟩ := execSetv_next.1 h
    exact hs hon
  | seta v =>
    obtain ⟨⟨hon, -⟩, rfl⟩ := execSeta_next.1 h
    exact hs hon
  | ramp =>
    obtain ⟨⟨hon, -⟩, hp, -, rfl⟩ := execRamp_next.1 h
    obtain ⟨-, hlt⟩ := hs hon
    exact ⟨by simp, fun _ => hlt (by simp [hp])⟩
  | count =>
    obtain ⟨⟨hon, -⟩, hp, rfl⟩ := execCount_next.1 h
    obtain ⟨-, hlt⟩ := hs hon
    have hiter : s.iter < s.cfg.interval := hlt (by simp [hp])
    rw [iterOk, countState_iter, countState_cfg]
    rcases countState_cases s with ⟨hdue, hphase, -⟩ | ⟨hdue, hphase, -⟩
    · exact ⟨fun _ => hdue, fun hne => absurd hphase hne⟩
    · exact ⟨by simp [hphase], fun _ => by omega⟩
  | finish tx o =>
    obtain ⟨-, -, rfl⟩ := execFinish_next.1 h
    exact ⟨by simp, fun _ => by rwa [finishState_iter, finishState_cfg]⟩

/-- R31: and so does every run from a state that does. -/
theorem runOps_keeps_iterOk {ops : List Instr} {s t : State} (hpos : 1 ≤ s.cfg.interval) (hs : iterOk s)
    (h : runOps ops s = .next t) : iterOk t := by
  obtain ⟨-, hok⟩ := runOps_invariant (kind := fun _ => true) (P := fun u => 1 ≤ u.cfg.interval ∧ iterOk u)
    (fun i u v _ hv ⟨hpos, hu⟩ => by
      obtain ⟨hcfg, -⟩ := eachRegisterHasItsWriters i u v hv
      exact ⟨hcfg ▸ hpos, exec_keeps_iterOk hpos (fun _ => hu) hv⟩)
    (by simp) h ⟨hpos, hs⟩
  exact hok

/-- R230: what RESET leaves, whatever it started from. -/
theorem iterOk_of_reset {a b : Bool} {s0 s : State} (hpos : 1 ≤ s0.cfg.interval) (h : exec (.reset a b) s0 = .next s) :
    iterOk s ∧ s.cfg = s0.cfg ∧ s.iter = 0 ∧ s.tick = 0 ∧ s.phase = .pRamp ∧ s.tlmOut = s0.tlmOut := by
  obtain ⟨-, rfl⟩ := execReset_next.1 h
  exact ⟨⟨by simp, fun _ => hpos⟩, rfl, rfl, rfl, rfl, rfl⟩

/-- Settles O49: the writes of COUNT and FINISH, and the invariant `iterOk` from RESET on. -/
theorem iterStaysWithinTheWindow : Obligations.IterStaysWithinTheWindow := by
  refine ⟨fun s t h => ?_, fun tx o s t h => ?_, fun a b s0 s t ops hpos hreset h => ?_⟩
  · obtain ⟨-, -, rfl⟩ := execCount_next.1 h
    exact countState_iter s
  · obtain ⟨-, -, rfl⟩ := execFinish_next.1 h
    exact finishState_iter tx o s
  · obtain ⟨hok, hcfg, -⟩ := iterOk_of_reset hpos hreset
    obtain ⟨hdue, hnotdue⟩ := runOps_keeps_iterOk (hcfg ▸ hpos) hok h
    rw [runOps_cfg h, hcfg] at hdue hnotdue
    exact ⟨hdue, fun hp => Nat.le_sub_one_of_lt (hnotdue hp)⟩

/-! ### The records of a run -/

/-- R161: an operation appends one record when it is a FINISH with tx = 1, that of its window, and none otherwise. -/
theorem exec_new_records {i : Instr} {s t : State} {P : Record → Prop} (h : exec i s = .next t)
    (hP : ∀ o, Running s → s.phase = .pFinish → P (windowRecord o s)) :
    ∃ rs, t.tlmOut = s.tlmOut ++ rs ∧ rs.length = (if isReadyFinish i = true then 1 else 0) ∧ ∀ r ∈ rs, P r := by
  cases hi : isReadyFinish i with
  | false => exact ⟨[], by rw [exec_tlmOut_of_not_readyFinish h hi, List.append_nil], rfl, by simp⟩
  | true =>
    obtain ⟨o, happend⟩ := exec_tlmOut_of_readyFinish h hi
    have hrun : Running s ∧ s.phase = .pFinish := by
      cases i with
      | finish tx o' =>
        obtain ⟨hs, hp, -⟩ := execFinish_next.1 h
        exact ⟨hs, hp⟩
      | reset | edge | setv | seta | ramp | count => cases hi
    exact ⟨[windowRecord o s], happend, rfl, by simpa using hP o hrun.1 hrun.2⟩

/-- R38: a run appends as many records as it has FINISHes with tx = 1. -/
theorem runOps_tlmOut {ops : List Instr} {s t : State} (h : runOps ops s = .next t) :
    ∃ rs, t.tlmOut = s.tlmOut ++ rs ∧ rs.length = ops.countP isReadyFinish := by
  refine runOps_induction (kind := fun _ => true)
    (motive := fun ops s t => ∃ rs, t.tlmOut = s.tlmOut ++ rs ∧ rs.length = ops.countP isReadyFinish)
    (fun s => ⟨[], by simp, rfl⟩) ?_ (by simp) h
  rintro i is s u t - hu ⟨rs, hout, hlen⟩
  obtain ⟨new, hnew, hone, -⟩ := exec_new_records (P := fun _ => True) hu (fun _ _ _ => trivial)
  refine ⟨new ++ rs, by rw [hout, hnew, List.append_assoc], ?_⟩
  rw [List.length_append, List.countP_cons, hlen, hone, Nat.add_comm]

/-! ### The number of reports -/

/-- R160, R161: COUNT adds 1 to ITER, and FINISH takes INTERVAL from it. -/
theorem exec_iter_balance {i : Instr} {s t : State} (hi : isReset i = false) (hs : iterOk s) (h : exec i s = .next t) :
    s.iter + (if isCount i = true then 1 else 0) = t.iter + s.cfg.interval * (if isFinish i = true then 1 else 0) := by
  cases i with
  | reset => cases hi
  | count =>
    obtain ⟨-, -, rfl⟩ := execCount_next.1 h
    simp [isCount, isFinish]
  | finish tx o =>
    obtain ⟨-, hp, rfl⟩ := execFinish_next.1 h
    simp [isCount, isFinish, hs.1 hp]
  | edge | setv | seta | ramp =>
    obtain ⟨-, -, -, -, -, hframe⟩ := eachRegisterHasItsWriters _ s t h
    obtain ⟨-, -, -, -, -, hiter, -⟩ := hframe rfl
    simp [isCount, isFinish, hiter rfl rfl]

/-- R164: over a run without RESET, the COUNTs are those still in ITER and INTERVAL for every FINISH. -/
theorem runOps_iter_balance {ops : List Instr} {s t : State} (hops : ops.all (fun i => !isReset i) = true)
    (hpos : 1 ≤ s.cfg.interval) (hs : iterOk s) (h : runOps ops s = .next t) :
    s.iter + ops.countP isCount = t.iter + s.cfg.interval * ops.countP isFinish := by
  refine runOps_induction (motive := fun ops s t => 1 ≤ s.cfg.interval → iterOk s →
    s.iter + ops.countP isCount = t.iter + s.cfg.interval * ops.countP isFinish) (fun s _ _ => by simp) ?_ hops h hpos hs
  intro i is s u t hi hu ih hpos hs
  rw [Bool.not_eq_true'] at hi
  obtain ⟨hcfg, -⟩ := eachRegisterHasItsWriters i s u hu
  have hstep := exec_iter_balance hi hs hu
  have hrest := ih (hcfg ▸ hpos) (exec_keeps_iterOk hpos (fun _ => hs) hu)
  rw [hcfg] at hrest
  rw [List.countP_cons, List.countP_cons, Nat.mul_add]
  omega

/-- R164: the balance read as a quotient: a report that is due has taken its window's last COUNT but no FINISH yet. -/
theorem finishes_eq_quotient {interval counts finishes : Nat} {t : State} (hpos : 1 ≤ interval)
    (hdue : t.phase = .pFinish → t.iter = interval) (hnotdue : t.phase ≠ .pFinish → t.iter < interval)
    (hbalance : counts = t.iter + interval * finishes) :
    finishes = (counts - if t.phase = .pFinish then 1 else 0) / interval := by
  symm
  by_cases hp : t.phase = .pFinish
  · rw [if_pos hp, hbalance, hdue hp, show interval + interval * finishes - 1 = interval - 1 + interval * finishes by omega,
      Nat.add_mul_div_left _ _ hpos, Nat.div_eq_of_lt (by omega), Nat.zero_add]
  · rw [if_neg hp, hbalance, Nat.sub_zero, Nat.add_mul_div_left _ _ hpos, Nat.div_eq_of_lt (hnotdue hp), Nat.zero_add]

/-- When every FINISH finds the transport ready, the FINISHes with tx = 1 are all of them. -/
theorem countP_isReadyFinish {ops : List Instr} (hops : ops.all (fun i => !isFinish i || isReadyFinish i) = true) :
    ops.countP isReadyFinish = ops.countP isFinish := by
  refine List.countP_congr fun i hi => ?_
  have hready := List.all_eq_true.1 hops i hi
  cases i with
  | finish tx o => simpa [isFinish, isReadyFinish] using hready
  | reset | edge | setv | seta | ramp | count => simp [isFinish, isReadyFinish]

/-- Settles O35: from RESET on ITER starts at 0, so the balance of COUNTs and FINISHes is the quotient; and the records are
those of the FINISHes with tx = 1. -/
theorem reportCount : Obligations.ReportCount := by
  intro a b s0 s hpos hreset
  obtain ⟨hok, hcfg, hzero, -⟩ := iterOk_of_reset hpos hreset
  have hspos : 1 ≤ s.cfg.interval := hcfg ▸ hpos
  refine ⟨fun ops t hops h => ?_, fun ops tx o t hops h => ?_⟩
  · obtain ⟨hdue, hnotdue⟩ := runOps_keeps_iterOk hspos hok h
    have hbalance := runOps_iter_balance hops hspos hok h
    rw [runOps_cfg h] at hdue hnotdue
    rw [hzero, Nat.zero_add] at hbalance
    have hquotient := finishes_eq_quotient hspos hdue hnotdue hbalance
    rw [hcfg] at hquotient
    obtain ⟨rs, hout, hlen⟩ := runOps_tlmOut h
    have hlength : t.tlmOut.length = s.tlmOut.length + ops.countP isReadyFinish := by
      rw [hout, List.length_append, hlen]
    exact ⟨hquotient, hlength, fun hready => by rw [hlength, countP_isReadyFinish hready, hquotient]⟩
  · obtain ⟨u, hu, hlast⟩ := runOps_append_next.1 h
    obtain ⟨v, hfinish, -⟩ := runOps_cons_next.1 hlast
    have hbalance := runOps_iter_balance hops hspos hok hu
    obtain ⟨hdue, -⟩ := runOps_keeps_iterOk hspos hok hu
    rw [hzero, Nat.zero_add, hdue (phase_of_exec_mainLoop rfl hfinish), runOps_cfg hu, hcfg] at hbalance
    rw [hbalance]
    ring

/-! ### Ticks are conserved -/

/-- The ticks that the block still holds or has handed over: those of its records, TICK, and TSMP while a report is due. -/
def ticksHeld (s : State) : Nat :=
  (s.tlmOut.map Record.ticks).sum + s.tick + if s.phase = .pFinish then s.tsmp else 0

/-- R165: an operation adds to the ticks held those of its valid transition, modulo 2^TICK_W: COUNT moves TICK to TSMP, and a
FINISH with tx = 1 moves TSMP to its record. -/
theorem exec_ticksHeld {i : Instr} {s t : State} (hi : isReset i = false) (hready : isFinish i = true → isReadyFinish i = true)
    (h : exec i s = .next t) : ticksHeld t ≡ ticksHeld s + (transitions i s).length [MOD 2 ^ s.cfg.tickW] := by
  cases i with
  | reset => cases hi
  | edge a b an bn =>
    have hcases := exec_transitions hi h
    obtain ⟨-, rfl⟩ := execEdge_next.1 h
    rcases hcases with ⟨hnone, -, -, htick⟩ | ⟨d, -, hone, -, -, -, htick⟩
    · rw [hnone]
      simp [ticksHeld, htick rfl, Nat.ModEq.refl]
    · rw [hone]
      simp only [ticksHeld, htick, decodeEdge_tlmOut, decodeEdge_phase, decodeEdge_tsmp, List.length_singleton]
      rw [Nat.add_right_comm _ _ 1, Nat.add_assoc _ s.tick 1]
      exact ((Nat.mod_modEq _ _).add_left _).add_right _
  | setv v =>
    obtain ⟨-, rfl⟩ := execSetv_next.1 h
    exact Nat.ModEq.refl _
  | seta v =>
    obtain ⟨-, rfl⟩ := execSeta_next.1 h
    exact Nat.ModEq.refl _
  | ramp =>
    obtain ⟨-, hp, -, rfl⟩ := execRamp_next.1 h
    rw [transitions_of_not_edge rfl]
    simp [ticksHeld, hp, Nat.ModEq.refl]
  | count =>
    obtain ⟨-, hp, rfl⟩ := execCount_next.1 h
    rw [transitions_of_not_edge rfl]
    rcases countState_cases s with ⟨-, hphase, htsmp, htick⟩ | ⟨-, hphase, htsmp, htick⟩
    · simp [ticksHeld, hp, hphase, htsmp, htick, Nat.ModEq.refl]
    · simp [ticksHeld, hp, hphase, htick, Nat.ModEq.refl]
  | finish tx o =>
    obtain ⟨-, hp, rfl⟩ := execFinish_next.1 h
    have htx : tx = true := hready rfl
    rw [transitions_of_not_edge rfl]
    simp [ticksHeld, hp, htx, windowRecord, Nat.add_right_comm, Nat.ModEq.refl]

/-- R165: over a run whose FINISHes all find the transport ready. -/
theorem runOps_ticksHeld {ops : List Instr} {s t : State}
    (hops : ops.all (fun i => !isReset i && (!isFinish i || isReadyFinish i)) = true) (h : runOps ops s = .next t) :
    ticksHeld t ≡ ticksHeld s + (validDirs s.cfg s.prev (samplesOf ops)).length [MOD 2 ^ s.cfg.tickW] := by
  refine runOps_induction (motive := fun ops s t =>
    ticksHeld t ≡ ticksHeld s + (validDirs s.cfg s.prev (samplesOf ops)).length [MOD 2 ^ s.cfg.tickW])
    (fun s => Nat.ModEq.refl _) ?_ hops h
  intro i is s u t hi hu ih
  rw [Bool.and_eq_true, Bool.not_eq_true', Bool.or_eq_true, Bool.not_eq_true'] at hi
  obtain ⟨hreset, hready⟩ := hi
  obtain ⟨hcfg, -⟩ := eachRegisterHasItsWriters i s u hu
  have hstep := exec_ticksHeld hreset (fun hf => hready.resolve_left (by simp [hf])) hu
  rw [validDirs_samplesOf_cons hreset hu, List.length_append, ← Nat.add_assoc]
  rw [hcfg] at ih ⊢
  exact ih.trans (hstep.add_right _)

/-- Settles O37: RESET leaves no ticks but those of the records before it, which the run's records follow. -/
theorem ticksConserved : Obligations.TicksConserved := by
  intro a b s0 s t ops hreset hops h
  obtain ⟨-, rfl⟩ := execReset_next.1 hreset
  obtain ⟨rs, hout, -⟩ := runOps_tlmOut h
  have hrun := runOps_ticksHeld hops h
  have hstart : ticksHeld (loadReset a b s0) = ((loadReset a b s0).tlmOut.map Record.ticks).sum := by simp [ticksHeld]
  rw [hstart, ticksHeld, hout, List.map_append, List.sum_append, Nat.add_assoc, Nat.add_assoc] at hrun
  have hrest := Nat.ModEq.add_left_cancel' _ hrun
  rw [hout, List.drop_left, Nat.add_assoc]
  exact hrest

/-! ### EDGEs between a COUNT and its FINISH -/

theorem samplesOf_edgesOf (xs : List Sample) : samplesOf (edgesOf xs) = xs := by
  induction xs with
  | nil => rfl
  | cons x xs ih => exact congrArg (x :: ·) ih

/-- A property of every EDGE is one of every operation of a sequence of samples. -/
theorem edgesOf_all {kind : Instr → Bool} (hkind : ∀ a b an bn, kind (.edge a b an bn) = true) (xs : List Sample) :
    (edgesOf xs).all kind = true := by
  simp [edgesOf, hkind]

/-- R100: on a running block EDGEs complete, whatever their samples, and leave all but the decoder registers. -/
theorem runOps_edgesOf (xs : List Sample) {s : State} (hs : Running s) :
    ∃ u, runOps (edgesOf xs) s = .next u ∧ Running u ∧ u.phase = s.phase ∧ u.tsmp = s.tsmp ∧ u.tlmOut = s.tlmOut := by
  induction xs generalizing s with
  | nil => exact ⟨s, rfl, hs, rfl, rfl, rfl⟩
  | cons x xs ih =>
    have hx := exec_edge_of_running hs x.a x.b x.an x.bn
    obtain ⟨u, hu, hrun, hphase, htsmp, hout⟩ :=
      ih (s := decodeEdge x.a x.b x.an x.bn s) (by simpa [Running] using hs)
    exact ⟨u, runOps_cons_next.2 ⟨_, hx, hu⟩, hrun, by rw [hphase, decodeEdge_phase], by rw [htsmp, decodeEdge_tsmp],
      by rw [hout, decodeEdge_tlmOut]⟩

/-- Settles O36: COUNT has sampled TICK and zeroed it before the EDGEs run, so FINISH finds the old ticks in TSMP, the EDGEs'
direction and reversals in DIR and DCF (O17, O18), and leaves their ticks in TICK (O19). -/
theorem edgesBetweenCountAndFinish : Obligations.EdgesBetweenCountAndFinish := by
  intro xs o s hs hp hdue
  have hcount := exec_count_of_named hs hp
  obtain ⟨-, hphase, htsmp, htick⟩ | ⟨hnotdue, -⟩ := countState_cases s
  swap
  · exact absurd hdue hnotdue
  have hrunCount : Running (countState s) := by simpa [Running] using hs
  obtain ⟨u, hu, hrun, huphase, hutsmp, huout⟩ := runOps_edgesOf xs hrunCount
  have hfinish := exec_finish_of_named hrun (huphase.trans hphase) true o
  have hdir := directionOfLastValidTransition (edgesOf xs) _ u (edgesOf_all (fun _ _ _ _ => rfl) xs) hu
  have hdcf := latchRecordsReversals (edgesOf xs) _ u (edgesOf_all (fun _ _ _ _ => rfl) xs) hu
  have hticks := tickCountsValidTransitions.1 (edgesOf xs) _ u (by rw [htick]; exact Nat.two_pow_pos _)
    (edgesOf_all (fun _ _ _ _ => rfl) xs) hu
  rw [samplesOf_edgesOf, countState_cfg, countState_prev] at hdir hdcf hticks
  rw [countState_dir] at hdir hdcf
  rw [countState_dcf] at hdcf
  rw [htick, Nat.zero_add] at hticks
  refine ⟨finishState true o u, windowRecord o u, ?_, by simp [huout], hutsmp.trans htsmp, hdir, hdcf, by simpa using hticks,
    finishState_dcf true o u⟩
  have hbefore : runOps ([.count] ++ edgesOf xs) s = .next u :=
    runOps_append_next.2 ⟨_, runOps_cons_next.2 ⟨_, hcount, rfl⟩, hu⟩
  exact runOps_append_next.2 ⟨u, hbefore, runOps_cons_next.2 ⟨_, hfinish, rfl⟩⟩

/-! ### The window clock -/

/-- The window clock reads the configuration, LOOPC, OBST and ITER. -/
theorem windowClock_of_eq {s t : State} (hs : WindowClock s) (hon : s.started = true) (hcfg : t.cfg = s.cfg)
    (hloopc : t.loopc = s.loopc) (hobst : t.obst = s.obst) (hiter : t.iter = s.iter) : WindowClock t := by
  intro _ hsource
  rw [hcfg] at hsource ⊢
  rw [hloopc, hobst, hiter]
  exact hs hon hsource

/-- R230: RESET starts the clock, whatever it stood at. -/
theorem windowClock_loadReset (a b : Bool) (s : State) : WindowClock (loadReset a b s) := by
  intro _ _
  simp [wrapSub_self, wrap_zero]

/-- R166: with TIME_SOURCE = ITER, COUNT counts in LOOPC and in ITER, and FINISH restarts both sides at 0. -/
theorem exec_keeps_windowClock {i : Instr} {s t : State} (hs : WindowClock s) (h : exec i s = .next t) : WindowClock t := by
  cases i with
  | reset a b =>
    obtain ⟨-, rfl⟩ := execReset_next.1 h
    exact windowClock_loadReset a b s
  | edge | setv | seta | ramp =>
    obtain ⟨hcfg, -, -, -, -, hframe⟩ := eachRegisterHasItsWriters _ s t h
    obtain ⟨-, -, -, -, hcount, hiter, hobst, -⟩ := hframe rfl
    exact windowClock_of_eq hs (running_of_exec rfl h).1 hcfg (hcount rfl).2 (hobst rfl) (hiter rfl rfl)
  | count =>
    obtain ⟨⟨hon, -⟩, -, rfl⟩ := execCount_next.1 h
    intro _ hsource
    rw [countState_cfg] at hsource ⊢
    rw [countState_loopc, countState_obst, countState_iter]
    exact wrapSub_succ _ _ _ _ (hs hon hsource)
  | finish tx o =>
    obtain ⟨-, -, rfl⟩ := execFinish_next.1 h
    intro _ hsource
    rw [finishState_cfg] at hsource
    rw [finishState_loopc, finishState_obst, finishState_iter, timestamp_eq, if_pos hsource, wrapSub_self, wrap_zero]

/-- R166: the record of a window that closes lasts INTERVAL, modulo 2^TIME_W. -/
theorem windowRecord_dur {s : State} (hclock : WindowClock s) (hok : iterOk s) (hs : Running s) (hp : s.phase = .pFinish)
    (hsource : s.cfg.timeSource = .iter) (o : Operand) : (windowRecord o s).dur = wrap s.cfg.timeW s.cfg.interval := by
  rw [windowRecord, timestamp_eq, if_pos hsource, hclock hs.1 hsource, hok.1 hp]

/-- Settles O52: an operation keeps the clock, and the record that it may append is one of a closing window. -/
theorem stepKeepsTheWindowClock : Obligations.StepKeepsTheWindowClock := by
  intro s t hinv hclock hrecords h
  obtain ⟨-, i, rest, -, hexec⟩ := step_next h
  obtain ⟨-, -, hstarted⟩ := hinv
  obtain ⟨hcfg, -⟩ := eachRegisterHasItsWriters i _ t hexec
  have hclock' : WindowClock (advance rest s) := hclock
  refine ⟨exec_keeps_windowClock hclock' hexec, fun hsource r hr => ?_⟩
  rw [hcfg] at hsource ⊢
  obtain ⟨rs, hout, -, hnew⟩ := exec_new_records (P := fun r => r.dur = wrap s.cfg.timeW s.cfg.interval) hexec
    (fun o hs hp => by
      obtain ⟨-, -, hok, -⟩ := hstarted hs.1
      exact windowRecord_dur hclock' hok hs hp hsource o)
  rw [hout, List.mem_append] at hr
  rcases hr with hold | hadded
  · exact hrecords hsource r hold
  · exact hnew r hadded

/-- R166 over a run. -/
theorem runOps_records_dur {ops : List Instr} {s t : State} (hpos : 1 ≤ s.cfg.interval)
    (hsource : s.cfg.timeSource = .iter) (hok : iterOk s) (hclock : WindowClock s) (h : runOps ops s = .next t) :
    ∃ rs, t.tlmOut = s.tlmOut ++ rs ∧ ∀ r ∈ rs, r.dur = wrap s.cfg.timeW s.cfg.interval := by
  refine runOps_induction (kind := fun _ => true) (motive := fun _ s t => 1 ≤ s.cfg.interval →
    s.cfg.timeSource = .iter → iterOk s → WindowClock s →
    ∃ rs, t.tlmOut = s.tlmOut ++ rs ∧ ∀ r ∈ rs, r.dur = wrap s.cfg.timeW s.cfg.interval)
    (fun s _ _ _ _ => ⟨[], by simp, by simp⟩) ?_ (by simp) h hpos hsource hok hclock
  intro i is s u t _ hu ih hpos hsource hok hclock
  obtain ⟨hcfg, -⟩ := eachRegisterHasItsWriters i s u hu
  obtain ⟨new, hnew, -, hdur⟩ := exec_new_records (P := fun r => r.dur = wrap s.cfg.timeW s.cfg.interval) hu
    (fun o hs hp => windowRecord_dur hclock hok hs hp hsource o)
  obtain ⟨rs, hout, hdurs⟩ := ih (hcfg ▸ hpos) (hcfg ▸ hsource) (exec_keeps_iterOk hpos (fun _ => hok) hu)
    (exec_keeps_windowClock hclock hu)
  refine ⟨new ++ rs, by rw [hout, hnew, List.append_assoc], fun r hr => ?_⟩
  rw [List.mem_append] at hr
  rw [hcfg] at hdurs
  exact hr.elim (hdur r) (hdurs r)

/-- Settles O38: RESET starts the window clock, and 10000 is below 2^32. -/
theorem windowsLastInterval : Obligations.WindowsLastInterval := by
  intro a b s0 s t ops hpos hsource hreset h r hr
  obtain ⟨hok, hcfg, -, -, -, hout0⟩ := iterOk_of_reset hpos hreset
  have hclock : WindowClock s := by
    obtain ⟨-, rfl⟩ := execReset_next.1 hreset
    exact windowClock_loadReset a b s0
  obtain ⟨rs, hout, hdur⟩ := runOps_records_dur (hcfg ▸ hpos) (hcfg ▸ hsource) hok hclock h
  rw [hout, hout0, List.drop_left] at hr
  have hr' := hdur r hr
  rw [hcfg, wrap] at hr'
  exact ⟨hr', fun hstandard => by rw [hr', hstandard]; rfl⟩

/-! ### FINISH with and without the transport, and iterations that end -/

/-- Settles O34: the two next states of FINISH differ in TLM_OUT alone. -/
theorem droppedWindowRestarts : Obligations.DroppedWindowRestarts := by
  intro o s hs hp
  refine ⟨finishState true o s, windowRecord o s, exec_finish_of_named hs hp true o, by simp, ?_, by simp, by simp, by simp,
    by simp, id, by rw [finishState_obst, timestamp_eq]⟩
  rw [exec_finish_of_named hs hp, finishState_eq, finishState_eq]
  simp

/-- Settles O40: COUNT and FINISH ask for PHASE alone, and COUNT sends the main loop to RAMP or to FINISH, which sends it to
RAMP. -/
theorem reporterNeverBlocks : Obligations.ReporterNeverBlocks := by
  refine ⟨fun s hs hp => ⟨_, exec_count_of_named hs hp⟩, fun tx o s hs hp => ⟨_, exec_finish_of_named hs hp tx o⟩,
    fun s s1 h => ?_⟩
  obtain ⟨hs, -, -, rfl⟩ := execRamp_next.1 h
  refine ⟨_, exec_count_of_named hs rfl, ?_⟩
  rcases countState_cases { s with cv := rampNext s, phase := .pCount } with ⟨-, hphase, -⟩ | ⟨-, hphase, -⟩
  · exact .inr ⟨hphase, fun tx o => ⟨_, exec_finish_of_named (by simpa [Running] using hs) hphase tx o, by simp⟩⟩
  · exact .inl hphase

end Sys2Proof.Proofs
end

section
/-! PROOFS. The invariant of the block (10_state.md sections 1, 2, 4 and 5): every step keeps it and the reset state meets it; and
with it, under a weakly fair main loop, reports never stop falling due (20_memory.md section 6). -/

namespace Sys2Proof.Proofs

open Sys2Proof.Machine Sys2Proof.Safety Sys2Proof.Laws

/-! ### Counters within their widths -/

/-- R161: a timestamp is within TIME_W bits when LOOPC is. -/
theorem timestamp_lt {s : State} (hloopc : s.loopc < 2 ^ s.cfg.timeW) (o : Operand) : timestamp o s < 2 ^ s.cfg.timeW := by
  rw [timestamp_eq]
  split
  · exact hloopc
  · exact Nat.mod_lt _ (Nat.two_pow_pos _)

/-- R26: EDGE leaves ERR or increments it. -/
theorem decodeEdge_err_cases (a b an bn : Bool) (s : State) :
    (decodeEdge a b an bn s).err = s.err ∨ (decodeEdge a b an bn s).err = wrap s.cfg.errW (s.err + 1) := by
  rcases decodeEdge_cases a b an bn s with ⟨-, -, h⟩ | ⟨-, ⟨-, h⟩ | ⟨-, h⟩ | ⟨-, h⟩ | ⟨-, h⟩⟩
  · exact .inr (by rw [h, bumpErr_err])
  · exact .inl (by rw [h])
  · exact .inr (by rw [h, bumpErr_err])
  · exact .inl (by rw [h, validStep_err])
  · exact .inl (by rw [h, validStep_err])

/-- A counter that was kept, or written narrowed, is within its width. -/
theorem lt_of_kept_or_wrapped {n old new v : Nat} (h : new = old ∨ new = wrap n v) (hold : old < 2 ^ n) : new < 2 ^ n := by
  rcases h with rfl | rfl
  · exact hold
  · exact wrap_lt n v

/-- R7, R21: every write to a counter is narrowed to its width, but for ITER, which stays within the window. -/
theorem exec_keeps_widths {i : Instr} {s t : State} (hs : s.started = true → widthsOk s)
    (hiter : t.iter < 2 ^ s.cfg.iterW) (h : exec i s = .next t) : widthsOk t := by
  cases i with
  | reset a b =>
    obtain ⟨-, rfl⟩ := execReset_next.1 h
    simp [widthsOk]
  | edge a b an bn =>
    obtain ⟨⟨hon, -⟩, rfl⟩ := execEdge_next.1 h
    obtain ⟨htick, htsmp, herr, -, hloopc, hobst⟩ := hs hon
    rw [widthsOk, decodeEdge_cfg, decodeEdge_tsmp, decodeEdge_loopc, decodeEdge_obst]
    exact ⟨lt_of_kept_or_wrapped (decodeEdge_tick_cases a b an bn s) htick, htsmp,
      lt_of_kept_or_wrapped (decodeEdge_err_cases a b an bn s) herr, hiter, hloopc, hobst⟩
  | setv v =>
    obtain ⟨⟨hon, -⟩, rfl⟩ := execSetv_next.1 h
    exact hs hon
  | seta v =>
    obtain ⟨⟨hon, -⟩, rfl⟩ := execSeta_next.1 h
    exact hs hon
  | ramp =>
    obtain ⟨⟨hon, -⟩, -, -, rfl⟩ := execRamp_next.1 h
    exact hs hon
  | count =>
    obtain ⟨⟨hon, -⟩, -, rfl⟩ := execCount_next.1 h
    obtain ⟨htick, htsmp, herr, -, hloopc, hobst⟩ := hs hon
    rw [widthsOk, countState_cfg, countState_err, countState_loopc, countState_obst]
    rcases countState_cases s with ⟨-, -, htsmp', htick'⟩ | ⟨-, -, htsmp', htick'⟩
    · rw [htsmp', htick']
      exact ⟨Nat.two_pow_pos _, htick, herr, hiter, wrap_lt _ _, hobst⟩
    · rw [htsmp', htick']
      exact ⟨htick, htsmp, herr, hiter, wrap_lt _ _, hobst⟩
  | finish tx o =>
    obtain ⟨⟨hon, -⟩, -, rfl⟩ := execFinish_next.1 h
    obtain ⟨htick, htsmp, herr, -, hloopc, -⟩ := hs hon
    rw [widthsOk, finishState_cfg, finishState_tick, finishState_tsmp, finishState_err, finishState_loopc, finishState_obst]
    exact ⟨htick, htsmp, herr, hiter, hloopc, timestamp_lt hloopc o⟩

/-! ### No reversal without a direction -/

/-- R24: while DIR is unknown nothing has been latched. -/
theorem exec_keeps_unlatched {i : Instr} {s t : State} (hs : s.started = true → s.dir = .unknown → s.dcf = false)
    (h : exec i s = .next t) : t.dir = .unknown → t.dcf = false := by
  cases i with
  | reset a b =>
    obtain ⟨-, rfl⟩ := execReset_next.1 h
    exact fun _ => rfl
  | edge a b an bn =>
    obtain ⟨⟨hon, -⟩, rfl⟩ := execEdge_next.1 h
    intro hunknown
    rcases decodeEdge_dir_cases a b an bn s with hsame | hknown
    · rw [decodeEdge_dcf, hsame, dcfAfter_same]
      exact hs hon (hsame ▸ hunknown)
    · exact absurd hunknown hknown
  | finish tx o =>
    obtain ⟨-, -, rfl⟩ := execFinish_next.1 h
    exact fun _ => finishState_dcf tx o s
  | setv | seta | ramp | count =>
    obtain ⟨-, -, -, -, -, hframe⟩ := eachRegisterHasItsWriters _ s t h
    obtain ⟨hdecoder, -, -, -, -, -, -, -, -, hdcf, -⟩ := hframe rfl
    obtain ⟨-, hdir, -⟩ := hdecoder rfl
    rw [hdir, hdcf rfl rfl]
    exact hs (running_of_exec rfl h).1

/-! ### The invariant -/

/-- R84: the record of a window is within its widths, and reports a reversal only of a known direction. -/
theorem windowRecord_ok {s : State} (hw : widthsOk s) (hlatch : s.dir = .unknown → s.dcf = false) (o : Operand) :
    recordOk s.cfg (windowRecord o s) = true := by
  obtain ⟨-, htsmp, -⟩ := hw
  have hchg : (s.dir == .unknown && s.dcf) = false := by
    by_cases hunknown : s.dir = .unknown
    · simp [hlatch hunknown]
    · simp [hunknown]
  simp only [recordOk, windowRecord, hchg, htsmp, wrapSub_lt, decide_true, Bool.and_self, Bool.not_false]

/-- Every operation keeps the invariant. -/
theorem exec_keeps_inv {i : Instr} {s t : State} (hs : Inv s) (h : exec i s = .next t) : Inv t := by
  obtain ⟨hc, hrecords, hstarted⟩ := hs
  obtain ⟨hpos, hinterval, -⟩ := (configLegal_iff s.cfg).1 hc
  obtain ⟨hcfg, -, -, hfault, -⟩ := eachRegisterHasItsWriters i s t h
  have hok : iterOk t := exec_keeps_iterOk hpos (fun hon => let ⟨_, _, hok, _⟩ := hstarted hon; hok) h
  have hiter : t.iter < 2 ^ s.cfg.iterW := by
    obtain ⟨hdue, hnotdue⟩ := hok
    rw [hcfg] at hdue hnotdue
    by_cases hp : t.phase = .pFinish
    · rwa [hdue hp]
    · exact (hnotdue hp).trans hinterval
  obtain ⟨rs, hout, -, hnew⟩ := exec_new_records (P := fun r => recordOk s.cfg r = true) h (fun o hs _ => by
    obtain ⟨-, hw, -, hlatch⟩ := hstarted hs.1
    exact windowRecord_ok hw hlatch o)
  refine ⟨hcfg ▸ hc, fun r hr => ?_, fun _ => ⟨hfault, ?_, hok, ?_⟩⟩
  · rw [hcfg]
    rw [hout, List.mem_append] at hr
    exact hr.elim (hrecords r) (hnew r)
  · exact exec_keeps_widths (fun hon => let ⟨_, hw, _⟩ := hstarted hon; hw) hiter h
  · exact exec_keeps_unlatched (fun hon => let ⟨_, _, _, hlatch⟩ := hstarted hon; hlatch) h

/-- Settles O50: a step is an operation on the state whose words are taken, and the invariant does not read the schedule. -/
theorem stepKeepsInv : Obligations.StepKeepsInv := by
  intro s t hs h
  obtain ⟨-, i, rest, -, hexec⟩ := step_next h
  have hs' : Inv (advance rest s) := hs
  exact exec_keeps_inv hs' hexec

/-- Settles O53: the reset state is a running one with every counter 0, no records and RAMP next. -/
theorem resetMeetsTheInvariants : Obligations.ResetMeetsTheInvariants := by
  have hwidths : widthsOk State.reset := by
    unfold widthsOk
    decide
  exact ⟨⟨by decide, by decide, fun _ => ⟨rfl, hwidths, ⟨by decide, by decide⟩, fun _ => rfl⟩⟩, fun _ => by decide,
    fun _ _ => by decide, fun _ => by decide⟩

/-- Settles O10: RESET writes every register that State.reset gives a value, and keeps the configuration, the records and the
schedule. -/
theorem resetStateIsAfterPowerOn : Obligations.ResetStateIsAfterPowerOn := by
  intro s hoff hcfg hout hsched
  rw [exec_reset_of_enabled (.inl hoff), loadReset, hcfg, hout, hsched]
  rfl

/-! ### Reports keep falling due -/

/-- How many main-loop operations, at most, come before the next FINISH. -/
def opsBeforeFinish (s : State) : Nat := 2 * (s.cfg.interval - s.iter) + if s.phase = .pRamp then 1 else 0

/-- R160: without a FINISH, every main-loop operation comes nearer to the next one, and no other operation moves away. -/
theorem exec_opsBeforeFinish {i : Instr} {s t : State} (hi : isReset i = false) (hf : isFinish i = false) (hs : iterOk s)
    (h : exec i s = .next t) :
    opsBeforeFinish t ≤ opsBeforeFinish s ∧ (agentOf i = .mainLoop → opsBeforeFinish t < opsBeforeFinish s) := by
  cases i with
  | reset => cases hi
  | finish => cases hf
  | edge | setv | seta =>
    obtain ⟨hcfg, -, -, -, -, hframe⟩ := eachRegisterHasItsWriters _ s t h
    obtain ⟨-, -, -, -, -, hiter, -, hphase, -⟩ := hframe rfl
    have hsame : opsBeforeFinish t = opsBeforeFinish s := by
      rw [opsBeforeFinish, hcfg, hiter rfl rfl, hphase (by simp [agentOf]), opsBeforeFinish]
    exact ⟨hsame.le, fun hagent => by cases hagent⟩
  | ramp =>
    obtain ⟨-, hp, -, rfl⟩ := execRamp_next.1 h
    simp [opsBeforeFinish, hp]
  | count =>
    obtain ⟨-, hp, rfl⟩ := execCount_next.1 h
    have hlt : s.iter < s.cfg.interval := hs.2 (by simp [hp])
    have hdecrease : opsBeforeFinish (countState s) < opsBeforeFinish s := by
      rw [opsBeforeFinish, opsBeforeFinish, countState_cfg, countState_iter, hp]
      split <;> simp <;> omega
    exact ⟨hdecrease.le, fun _ => hdecrease⟩

/-- The invariant holds at every point of an infinite run from a state that meets it. -/
theorem infiniteRun_inv {ops : Nat → Instr} {st : Nat → State} (hrun : InfiniteRun ops st) (h0 : Inv (st 0)) (n : Nat) :
    Inv (st n) := by
  induction n with
  | zero => exact h0
  | succ n ih => exact exec_keeps_inv ih (hrun n)

/-- Settles O45: from a point after which no FINISH came, every turn of the main loop would come nearer to one, and a fair main
loop has turns without end. -/
theorem fairRunsKeepReporting : Obligations.FairRunsKeepReporting := by
  intro ops st hrun hfair hreset h0 n
  by_contra hnone
  have hnofinish : ∀ m, n ≤ m → isFinish (ops m) = false := fun m hm => by
    by_contra hf
    exact hnone ⟨m, hm, by simpa using hf⟩
  have hstep : ∀ m, n ≤ m → opsBeforeFinish (st (m + 1)) ≤ opsBeforeFinish (st m) ∧
      (agentOf (ops m) = .mainLoop → opsBeforeFinish (st (m + 1)) < opsBeforeFinish (st m)) := fun m hm => by
    obtain ⟨-, -, hstarted⟩ := infiniteRun_inv hrun h0 m
    obtain ⟨hon, -⟩ := running_of_exec (hreset m) (hrun m)
    obtain ⟨-, -, hok, -⟩ := hstarted hon
    exact exec_opsBeforeFinish (hreset m) (hnofinish m hm) hok (hrun m)
  have hanti : Antitone fun k => opsBeforeFinish (st (n + k)) :=
    antitone_nat_of_succ_le fun k => (hstep (n + k) (Nat.le_add_right n k)).1
  obtain ⟨settled, hconst⟩ := WellFoundedLT.antitone_chain_condition hanti
  obtain ⟨m, hm, hagent⟩ := hfair (n + settled)
  obtain ⟨k, rfl⟩ := Nat.exists_eq_add_of_le ((Nat.le_add_right n settled).trans hm)
  have hless := (hstep (n + k) (Nat.le_add_right n k)).2 hagent
  have hhere := hconst k (by omega)
  have hnext := hconst (k + 1) (by omega)
  exact hless.ne (hnext.symm.trans hhere)

end Sys2Proof.Proofs
end
